-- ==== Sys2Proof/Word.lean ====
section
/-! DEFINITION. The word types of the machine: bytes, 16-bit words, 12-bit addresses, register names (00_scope.md R9, R11). -/

namespace Sys2Proof

/-- An 8-bit unsigned value: a general register, a memory cell, an immediate NN, the delay timer (R11, R21, R26, R27). -/
abbrev Byte := BitVec 8

/-- A 16-bit unsigned value: an instruction word, the program counter, the index register (R9, R23, R25). -/
abbrev Word := BitVec 16

/-- A 12-bit operand NNN, and an address the host's `Load` can name (30_encoding.md R82, 70_reset_and_hazards.md R241). -/
abbrev Addr12 := BitVec 12

/-- The name of a general register Vi, i in 0..15; no index is out of range (R21). -/
abbrev Reg := Fin 16

/-- A framebuffer column x, 0..63 (R28). -/
abbrev Col := Fin 64

/-- A framebuffer row y, 0..31 (R28). -/
abbrev Row := Fin 32

/-- VF, the register that doubles as the flag (R22). -/
abbrev VF : Reg := 15

end Sys2Proof
end

