-- ==== Sys2Proof/Syntax.lean ====
section
/-! DEFINITION. The instructions: one constructor per row of spec/opcode_table.json, carrying only the operands the encoding
holds (30_encoding.md R82, R84, R87). -/

namespace Sys2Proof

/-- A decoded instruction, in the order of R84, and last the sentinel row of the table. -/
inductive Instr where
  /-- 0x00E0 (R160). -/
  | cls
  /-- 0x1NNN (R130). -/
  | jp (nnn : Addr12)
  /-- 0x3XNN (R131). -/
  | seImm (x : Reg) (nn : Byte)
  /-- 0x4XNN (R132). -/
  | sne (x : Reg) (nn : Byte)
  /-- 0x5XY0 (R133). -/
  | seDir (x y : Reg)
  /-- 0x6XNN (R140). -/
  | ldImm (x : Reg) (nn : Byte)
  /-- 0x7XNN (R141). -/
  | addImm (x : Reg) (nn : Byte)
  /-- 0x8XY0 (R142). -/
  | ldDir (x y : Reg)
  /-- 0x8XY1 (R143). -/
  | or (x y : Reg)
  /-- 0x8XY2 (R144). -/
  | and (x y : Reg)
  /-- 0x8XY3 (R145). -/
  | xor (x y : Reg)
  /-- 0x8XY4 (R146). -/
  | addDir (x y : Reg)
  /-- 0x8XY5 (R147). -/
  | sub (x y : Reg)
  /-- 0x8XY6 (R148); `y` is decoded and not used (R86; DESIGN CHOICE, notes/assumptions/20.md). -/
  | shr (x y : Reg)
  /-- 0x8XY7 (R149). -/
  | subn (x y : Reg)
  /-- 0x8XYE (R150); `y` is decoded and not used (R86; DESIGN CHOICE, notes/assumptions/20.md). -/
  | shl (x y : Reg)
  /-- 0xANNN (R161). -/
  | ldi (nnn : Addr12)
  /-- 0xBNNN (R134). -/
  | jpOff (nnn : Addr12)
  /-- 0xDXYN (R162); `n` counts sprite rows, 0..15 in a well-formed instruction. -/
  | drw (x y : Reg) (n : Nat)
  /-- 0xFX07 (R180). -/
  | ldvdt (x : Reg)
  /-- 0xFX0A (R181). -/
  | ldk (x : Reg)
  /-- 0xFX15 (R183). -/
  | lddt (x : Reg)
  /-- 0x0000, the end-of-program sentinel: a row of the table, not an instruction of R84 (R90, R112; notes/assumptions/21.md). -/
  | haltSentinel
deriving DecidableEq, Repr

end Sys2Proof
end

