-- ==== Sys2Proof/WellFormed.lean ====
section
/-! DEFINITION. Which terms of `Instr` an encoding exists for. Register names, immediates and addresses are bounded by their
types; the one field held as a count, DRW's number of rows, is checked here (30_encoding.md R82). -/

namespace Sys2Proof

/-- Every operand fits its field (R82): N is a 4-bit field, so DRW draws at most 15 rows. -/
def Instr.wellFormed : Instr → Bool
  | .cls => true
  | .jp _ => true
  | .seImm _ _ => true
  | .sne _ _ => true
  | .seDir _ _ => true
  | .ldImm _ _ => true
  | .addImm _ _ => true
  | .ldDir _ _ => true
  | .or _ _ => true
  | .and _ _ => true
  | .xor _ _ => true
  | .addDir _ _ => true
  | .sub _ _ => true
  | .shr _ _ => true
  | .subn _ _ => true
  | .shl _ _ => true
  | .ldi _ => true
  | .jpOff _ => true
  | .drw _ _ n => decide (n < 16)
  | .ldvdt _ => true
  | .ldk _ => true
  | .lddt _ => true
  | .haltSentinel => true

end Sys2Proof
end

