-- ==== Sys2Proof/Decode.lean ====
section
/-! DEFINITION. Decoding of instruction words and bytes (30_encoding.md R80 to R90), the encoder, and the opcode map of R84 as
rows of mask and match. -/

namespace Sys2Proof

/-! ## Fields (R81, R82) -/

/-- The register a 4-bit field names. -/
def regOfBits (b : BitVec 4) : Reg := ⟨b.toNat, b.isLt⟩

/-- The 4-bit field that names a register. -/
def bitsOfReg (r : Reg) : BitVec 4 := BitVec.ofNat 4 r.val

/-- The nibble n1 = w[15:12], the primary opcode. -/
def nibble1 (w : Word) : BitVec 4 := w.extractLsb' 12 4

/-- The nibble n4 = w[3:0]. -/
def nibble4 (w : Word) : BitVec 4 := w.extractLsb' 0 4

/-- X = w[11:8], a register. -/
def fieldX (w : Word) : Reg := regOfBits (w.extractLsb' 8 4)

/-- Y = w[7:4], a register. -/
def fieldY (w : Word) : Reg := regOfBits (w.extractLsb' 4 4)

/-- N = w[3:0], a count of rows. -/
def fieldN (w : Word) : Nat := (nibble4 w).toNat

/-- NN = w[7:0], an immediate. -/
def fieldNN (w : Word) : Byte := w.extractLsb' 0 8

/-- NNN = w[11:0], an address. -/
def fieldNNN (w : Word) : Addr12 := w.extractLsb' 0 12

/-- A word of two bytes, the high byte first: big-endian (20_memory.md R51). -/
def wordOfBytes (hi lo : Byte) : Word := hi ++ lo

/-- The high byte of a word, which lies at the lower address (R51). -/
def highByte (w : Word) : Byte := w.extractLsb' 8 8

/-- The low byte of a word (R51). -/
def lowByte (w : Word) : Byte := w.extractLsb' 0 8

/-! ## The decoder -/

/-- The 0x8 family, by n4 (R85). -/
def decodeAlu (w : Word) : Option Instr :=
  match (nibble4 w).toNat with
  | 0x0 => some (.ldDir (fieldX w) (fieldY w))
  | 0x1 => some (.or (fieldX w) (fieldY w))
  | 0x2 => some (.and (fieldX w) (fieldY w))
  | 0x3 => some (.xor (fieldX w) (fieldY w))
  | 0x4 => some (.addDir (fieldX w) (fieldY w))
  | 0x5 => some (.sub (fieldX w) (fieldY w))
  | 0x6 => some (.shr (fieldX w) (fieldY w))
  | 0x7 => some (.subn (fieldX w) (fieldY w))
  | 0xE => some (.shl (fieldX w) (fieldY w))
  | _ => none

/-- The 0xF family, by the low byte (R85). -/
def decodeSystem (w : Word) : Option Instr :=
  match (fieldNN w).toNat with
  | 0x07 => some (.ldvdt (fieldX w))
  | 0x0A => some (.ldk (fieldX w))
  | 0x15 => some (.lddt (fieldX w))
  | _ => none

/-- The decoder of R87: a pure function of the word, to one of the 22 instructions or a failure, by the dispatch of R85. Handed
0x0000 it fails (R90). -/
def decodeOp (w : Word) : Option Instr :=
  match (nibble1 w).toNat with
  | 0x0 => if w = 0x00E0#16 then some .cls else none
  | 0x1 => some (.jp (fieldNNN w))
  | 0x3 => some (.seImm (fieldX w) (fieldNN w))
  | 0x4 => some (.sne (fieldX w) (fieldNN w))
  | 0x5 => if nibble4 w = 0#4 then some (.seDir (fieldX w) (fieldY w)) else none
  | 0x6 => some (.ldImm (fieldX w) (fieldNN w))
  | 0x7 => some (.addImm (fieldX w) (fieldNN w))
  | 0x8 => decodeAlu w
  | 0xA => some (.ldi (fieldNNN w))
  | 0xB => some (.jpOff (fieldNNN w))
  | 0xD => some (.drw (fieldX w) (fieldY w) (fieldN w))
  | 0xF => decodeSystem w
  | _ => none

/-- What a fetched word stands for: the sentinel is tested before the decoder (R90, R111), so that every row of the opcode table
has a term. `none` is a `DecodeError` (R89). -/
def decode (w : Word) : Option Instr :=
  if w = 0x0000#16 then some .haltSentinel else decodeOp w

/-- Why bytes are no instruction. -/
inductive DecodeReject where
  /-- Fewer than the two bytes every instruction has (R80). -/
  | truncated
  /-- The word is in no row of the table (R89). -/
  | unlisted (w : Word)
deriving DecidableEq, Repr

/-- Decode the first instruction of any bytes: two bytes, the high byte first (R80), and what follows them. -/
def decodeBytes : List Byte → Except DecodeReject (Instr × List Byte)
  | hi :: lo :: rest =>
    match decode (wordOfBytes hi lo) with
    | some i => .ok (i, rest)
    | none => .error (.unlisted (wordOfBytes hi lo))
  | [_] => .error .truncated
  | [] => .error .truncated

/-- The instruction of a table row's word `w` of `nbits` bits, its bits numbered as the table numbers them: one 16-bit word, laid
out high byte first and given to `decodeBytes`. -/
def decodeTableWord (nbits w : Nat) : Option Instr :=
  let word : Word := BitVec.ofNat 16 (w % 2 ^ nbits)
  match decodeBytes [highByte word, lowByte word] with
  | .ok (i, _) => some i
  | .error _ => none

/-! ## The encoder -/

/-- Format NNN (R83). -/
def formatNNN (n1 : BitVec 4) (nnn : Addr12) : Word := n1 ++ nnn

/-- Format XNN (R83). -/
def formatXNN (n1 : BitVec 4) (x : Reg) (nn : Byte) : Word := n1 ++ (bitsOfReg x ++ nn)

/-- Formats XYF and XYN: the last nibble is a function code or N (R83). -/
def formatXYN (n1 : BitVec 4) (x y : Reg) (n4 : BitVec 4) : Word :=
  n1 ++ (bitsOfReg x ++ (bitsOfReg y ++ n4))

/-- The word of an instruction, by its encoding in R84. -/
def encode : Instr → Word
  | .cls => 0x00E0#16
  | .jp nnn => formatNNN 0x1#4 nnn
  | .seImm x nn => formatXNN 0x3#4 x nn
  | .sne x nn => formatXNN 0x4#4 x nn
  | .seDir x y => formatXYN 0x5#4 x y 0x0#4
  | .ldImm x nn => formatXNN 0x6#4 x nn
  | .addImm x nn => formatXNN 0x7#4 x nn
  | .ldDir x y => formatXYN 0x8#4 x y 0x0#4
  | .or x y => formatXYN 0x8#4 x y 0x1#4
  | .and x y => formatXYN 0x8#4 x y 0x2#4
  | .xor x y => formatXYN 0x8#4 x y 0x3#4
  | .addDir x y => formatXYN 0x8#4 x y 0x4#4
  | .sub x y => formatXYN 0x8#4 x y 0x5#4
  | .shr x y => formatXYN 0x8#4 x y 0x6#4
  | .subn x y => formatXYN 0x8#4 x y 0x7#4
  | .shl x y => formatXYN 0x8#4 x y 0xE#4
  | .ldi nnn => formatNNN 0xA#4 nnn
  | .jpOff nnn => formatNNN 0xB#4 nnn
  | .drw x y n => formatXYN 0xD#4 x y (BitVec.ofNat 4 n)
  | .ldvdt x => formatXNN 0xF#4 x 0x07#8
  | .ldk x => formatXNN 0xF#4 x 0x0A#8
  | .lddt x => formatXNN 0xF#4 x 0x15#8
  | .haltSentinel => 0x0000#16

/-- The bytes of an instruction, as they lie in memory (R80). -/
def encodeBytes (i : Instr) : List Byte := [highByte (encode i), lowByte (encode i)]

/-! ## The opcode map as mask and match (R84) -/

/-- A row of R84: `w` is the row's instruction exactly when `w &&& mask = pat`. -/
structure OpRow where
  mnemonic : String
  pat : Word
  mask : Word
deriving DecidableEq, Repr

/-- Whether a row matches a word (R84). -/
def OpRow.hits (r : OpRow) (w : Word) : Bool := w &&& r.mask == r.pat

/-- The row of R84 an instruction belongs to, and for the sentinel its row of opcode_table.json. -/
def Instr.row : Instr → OpRow
  | .cls => ⟨"CLS", 0x00E0#16, 0xFFFF#16⟩
  | .jp _ => ⟨"JP", 0x1000#16, 0xF000#16⟩
  | .seImm _ _ => ⟨"SEImm", 0x3000#16, 0xF000#16⟩
  | .sne _ _ => ⟨"SNE", 0x4000#16, 0xF000#16⟩
  | .seDir _ _ => ⟨"SEDir", 0x5000#16, 0xF00F#16⟩
  | .ldImm _ _ => ⟨"LDImm", 0x6000#16, 0xF000#16⟩
  | .addImm _ _ => ⟨"ADDImm", 0x7000#16, 0xF000#16⟩
  | .ldDir _ _ => ⟨"LDDir", 0x8000#16, 0xF00F#16⟩
  | .or _ _ => ⟨"OR", 0x8001#16, 0xF00F#16⟩
  | .and _ _ => ⟨"AND", 0x8002#16, 0xF00F#16⟩
  | .xor _ _ => ⟨"XOR", 0x8003#16, 0xF00F#16⟩
  | .addDir _ _ => ⟨"ADDDir", 0x8004#16, 0xF00F#16⟩
  | .sub _ _ => ⟨"SUB", 0x8005#16, 0xF00F#16⟩
  | .shr _ _ => ⟨"SHR", 0x8006#16, 0xF00F#16⟩
  | .subn _ _ => ⟨"SUBN", 0x8007#16, 0xF00F#16⟩
  | .shl _ _ => ⟨"SHL", 0x800E#16, 0xF00F#16⟩
  | .ldi _ => ⟨"LDI", 0xA000#16, 0xF000#16⟩
  | .jpOff _ => ⟨"JPOff", 0xB000#16, 0xF000#16⟩
  | .drw _ _ _ => ⟨"DRW", 0xD000#16, 0xF000#16⟩
  | .ldvdt _ => ⟨"LDVDT", 0xF007#16, 0xF0FF#16⟩
  | .ldk _ => ⟨"LDK", 0xF00A#16, 0xF0FF#16⟩
  | .lddt _ => ⟨"LDDT", 0xF015#16, 0xF0FF#16⟩
  | .haltSentinel => ⟨"HALT_SENTINEL", 0x0000#16, 0xFFFF#16⟩

/-- The 22 rows of R84, in the spec's order. -/
def opRows : List OpRow :=
  [.cls, .jp 0, .seImm 0 0, .sne 0 0, .seDir 0 0, .ldImm 0 0, .addImm 0 0, .ldDir 0 0].map Instr.row
  ++ [.or 0 0, .and 0 0, .xor 0 0, .addDir 0 0, .sub 0 0, .shr 0 0, .subn 0 0, .shl 0 0].map Instr.row
  ++ [.ldi 0, .jpOff 0, .drw 0 0 0, .ldvdt 0, .ldk 0, .lddt 0].map Instr.row

/-! ## Assembly notation (R91, R92) -/

/-- An operand as the notation writes it. -/
inductive AsmOperand where
  /-- `V0` to `VF`. -/
  | reg (r : Reg)
  /-- An 8-bit immediate, two hexadecimal digits. -/
  | imm (nn : Byte)
  /-- A 12-bit address, three hexadecimal digits. -/
  | addr (nnn : Addr12)
  /-- DRW's number of rows, in decimal as the spec's example writes it. -/
  | count (n : Nat)
deriving DecidableEq, Repr

/-- The operands in encoding order (R91). SHR and SHL take one, their Y being written nowhere (D16). -/
def Instr.asmOperands : Instr → List AsmOperand
  | .cls => []
  | .jp nnn => [.addr nnn]
  | .seImm x nn => [.reg x, .imm nn]
  | .sne x nn => [.reg x, .imm nn]
  | .seDir x y => [.reg x, .reg y]
  | .ldImm x nn => [.reg x, .imm nn]
  | .addImm x nn => [.reg x, .imm nn]
  | .ldDir x y => [.reg x, .reg y]
  | .or x y => [.reg x, .reg y]
  | .and x y => [.reg x, .reg y]
  | .xor x y => [.reg x, .reg y]
  | .addDir x y => [.reg x, .reg y]
  | .sub x y => [.reg x, .reg y]
  | .shr x _ => [.reg x]
  | .subn x y => [.reg x, .reg y]
  | .shl x _ => [.reg x]
  | .ldi nnn => [.addr nnn]
  | .jpOff nnn => [.addr nnn]
  | .drw x y n => [.reg x, .reg y, .count n]
  | .ldvdt x => [.reg x]
  | .ldk x => [.reg x]
  | .lddt x => [.reg x]
  | .haltSentinel => []

/-- The mnemonic: the variant name (R91). The sentinel is no instruction and is written as the data word 0x0000 (R92). -/
def Instr.asmMnemonic : Instr → String
  | .haltSentinel => ".word 0x0000"
  | i => i.row.mnemonic

/-- A hexadecimal digit; the rest of `n` above 15 is dropped. -/
def hexDigit (n : Nat) : String :=
  ["0", "1", "2", "3", "4", "5", "6", "7", "8", "9", "A", "B", "C", "D", "E", "F"].getD (n % 16) "0"

/-- An operand's text (R91). -/
def AsmOperand.text : AsmOperand → String
  | .reg r => "V" ++ hexDigit r.val
  | .imm nn => "0x" ++ hexDigit (nn.toNat / 16) ++ hexDigit nn.toNat
  | .addr nnn => "0x" ++ hexDigit (nnn.toNat / 256) ++ hexDigit (nnn.toNat / 16) ++ hexDigit nnn.toNat
  | .count n => if n < 10 then hexDigit n else hexDigit (n / 10) ++ hexDigit (n % 10)

/-- An instruction in the notation of R91. -/
def Instr.asm (i : Instr) : String :=
  match i.asmOperands with
  | [] => i.asmMnemonic
  | o :: os => os.foldl (fun t p => t ++ ", " ++ p.text) (i.asmMnemonic ++ " " ++ o.text)

end Sys2Proof
end

