-- ==== Sys2Proof/Config.lean ====
section
/-! DEFINITION. What is fixed for the machine (00_scope.md R5), and the types of what the spec leaves to the outside: the open
parameters of R6 and the host's events of R7. -/

namespace Sys2Proof

namespace Config

/-- Main memory has 4096 cells (R5). -/
abbrev memSize : Nat := 4096

/-- The program origin, which `Start` puts in `pc` (R5, R242). -/
abbrev origin : Word := 0x200#16

/-- How many memory bytes the register view covers under `REG_ALIAS = aliased` (R33). -/
abbrev viewSize : Nat := 20

end Config

/-- `REG_ALIAS` (R6, R33): whether memory bytes 0..19 are a view of the registers. `separate` is the spec's default (D1). -/
inductive RegAlias where
  | separate
  | aliased
deriving DecidableEq, Repr

/-- The events through which the block meets the outside (R7). `Load`'s address is below 4096 and `Key`'s code below 16 by type:
larger ones cannot be delivered (R182, R241). -/
inductive Event where
  /-- Construct the machine anew (R240). -/
  | reset
  /-- The loader writes one byte (R241). -/
  | load (addr : Addr12) (v : Byte)
  /-- The run begins at the program origin (R242). -/
  | start
  /-- One instruction (R111). -/
  | cycle
  /-- The delay timer counts (R214). -/
  | tick
  /-- The input collaborator reports a key (R182). -/
  | key (k : BitVec 4)
  /-- The renderer reads a cell (R65). -/
  | fbRead (x : Col) (y : Row)
  /-- The host reads the run state (R205). -/
  | status
  /-- The host ends the run (R221). -/
  | quit
deriving DecidableEq, Repr

/-- What the host sends of a slice beyond the events that are pending.
DESIGN CHOICE, notes/assumptions/7.md. -/
inductive Pacing where
  /-- The spec's nominal schedule: one `Tick` before each `Cycle` (R6, D10). -/
  | nominal
  /-- `Cycle`s only. -/
  | cyclesOnly
  /-- Nothing: the host has quit (R221). -/
  | stopped
deriving DecidableEq, Repr

/-- The open parameters of R6 as plain data. They are not state of the block (R20); no instruction reads or writes them. -/
structure Env where
  /-- `REG_ALIAS`; fixed for the machine. -/
  regAlias : RegAlias
  /-- The events the host will deliver, oldest first, those of one slice taken in the order of R208: `TICK_SCHEDULE` and `KEY_SOURCE`
  (notes/assumptions/6.md, 29.md). -/
  pending : List Event
  /-- What the host sends beyond `pending`. -/
  pacing : Pacing
  /-- A `Tick` has been delivered since the last `Cycle`: this slice's tick is used up (R247, notes/assumptions/9.md). -/
  ticked : Bool
deriving DecidableEq, Repr

end Sys2Proof
end

