-- ==== Sys2Proof/Machine/State.lean ====
section
/-! DEFINITION. The state of the machine (10_state.md), why a step stops, and the state after `Reset` (R32, R240). -/

namespace Sys2Proof.Machine

/-- Main memory `bytes` (R27): the cells that are not 0, by rising address; an unlisted cell holds 0 (R32,
notes/assumptions/11.md). -/
abbrev Memory := List Host.Cell

/-- Why the core has halted (R30). It never changes once set. -/
inductive HaltReason where
  /-- The fetched word was 0x0000: the normal end of a program (R112, R203). -/
  | sentinel
  /-- The word in no row of the opcode table, and the address it was fetched from (R113, R201). -/
  | decodeError (word : Word) (addr : Nat)
  /-- The address of a memory read out of range (R52, R202). -/
  | executionFault (addr : Nat)
deriving DecidableEq, Repr

/-- The run state (R29). -/
inductive RunState where
  /-- After `Reset` and before `Start`. -/
  | loading
  /-- A `Cycle` executes one instruction. -/
  | running
  /-- An LDK waits for a key, which register `r` will receive. -/
  | waitKey (r : Reg)
  /-- Terminal. -/
  | halted (reason : HaltReason)
deriving DecidableEq, Repr

/-- The complete state of the block (R20), and beside it `env`, the open parameters of R6 as plain data. -/
structure State where
  /-- V0..VF (R21, R22). -/
  x : Vector Byte 16
  /-- The program counter (R23, R24). -/
  pc : Word
  /-- The index register I, the document's IR (R25). -/
  ir : Word
  /-- The delay timer (R26; 8 bits, notes/assumptions/2.md). -/
  dt : Byte
  /-- Main memory (R27). -/
  bytes : Memory
  /-- The framebuffer (R28): row y's 64 one-bit cells, the cell of column x being bit x (notes/assumptions/19.md). -/
  fb : Vector (BitVec 64) 32
  /-- The run state (R29, R30). -/
  run : RunState
  /-- The model's own: `REG_ALIAS` and the host's coming events (R6). -/
  env : Env
deriving DecidableEq, Repr

/-- The machine stops. A `DecodeError` or `ExecutionFault` of the spec is no such stop: it is a next state with `run` halted
(R209, notes/assumptions/5.md). -/
inductive Fault where
  /-- Raised by `step` alone, when the host has quit and so sends no further event (R221): there is no step to take. Safe: the
  model stops and nothing is claimed of what comes after (notes/assumptions/8.md). -/
  | hostQuit
deriving DecidableEq, Repr

/-- The model gives no meaning. -/
inductive Refusal where
  /-- An instruction that has no meaning yet, raised by its arm of `exec`. Safe: the run stops. No arm raises it now. -/
  | notModelled (mnemonic : String)
  /-- Raised by `step` when the host delivers a second `Tick` of one slice in state Running, for which the spec gives the model no
  move (R247; U12: refuse). Safe: the run stops (notes/assumptions/9.md). -/
  | secondTickInSlice
deriving DecidableEq, Repr

/-- The machine after `Reset` (R32, R240): everything zero, `run = Loading`, and the open parameters at their defaults
(R6; notes/assumptions/1.md, 6.md, 7.md, 9.md). -/
def State.reset : State where
  x := Vector.replicate 16 0#8
  pc := 0#16
  ir := 0#16
  dt := 0#8
  bytes := []
  fb := Vector.replicate 32 0#64
  run := .loading
  env := { regAlias := .separate, pending := [], pacing := .nominal, ticked := false }

end Sys2Proof.Machine
end

