-- ==== Sys2Proof/Machine/Ops.lean ====
section
/-! DEFINITION. The named operations every instruction and event is written from: registers, memory, the framebuffer, halting,
fetch and skip (00_scope.md R10, 20_memory.md, 40_fetch_cycle.md, 60_exceptions.md). -/

namespace Sys2Proof.Machine

/-! ## Memory cells -/

/-- The byte of the cell at `a`; an unlisted cell holds 0 (R32). -/
def Memory.read : Memory → Nat → Byte
  | [], _ => 0#8
  | (k, v) :: m, a => if k = a then v else Memory.read m a

/-- Put a cell into its place; a cell that holds 0 is not listed. -/
def Memory.write : Memory → Nat → Byte → Memory
  | [], a, b => if b = 0#8 then [] else [(a, b)]
  | (k, v) :: m, a, b =>
    if k < a then (k, v) :: Memory.write m a b
    else if k = a then (if b = 0#8 then m else (a, b) :: m)
    else (if b = 0#8 then (k, v) :: m else (a, b) :: (k, v) :: m)

/-- The cells from address `lo` on: strictly rising, below 4096, none holding 0. -/
def Memory.wfFrom (lo : Nat) : Memory → Bool
  | [] => true
  | (k, v) :: m => decide (lo ≤ k) && decide (k < Config.memSize) && decide (v ≠ 0#8) && Memory.wfFrom (k + 1) m

/-- The canonical form of memory: equal memories are equal lists. -/
def Memory.wf (m : Memory) : Bool := Memory.wfFrom 0 m

/-! ## Registers -/

/-- `x[i]` (R10). -/
def State.reg (s : State) (r : Reg) : Byte := s.x[r.val]'r.isLt

/-- `x[i] <- v` (R10); no register is hard-wired (R21). -/
def State.setReg (s : State) (r : Reg) (v : Byte) : State := { s with x := s.x.set r.val v r.isLt }

/-- Whether address `a` is a view of a register under `REG_ALIAS = aliased` (R33). -/
def State.isView (s : State) (a : Nat) : Bool := s.env.regAlias == .aliased && decide (a < Config.viewSize)

/-- The register byte that the view shows at `a`, for `a` below 20: pc, I, then V0..VF, each high byte first (R33). -/
def State.viewByte (s : State) (a : Nat) : Byte :=
  match a with
  | 0 => highByte s.pc
  | 1 => lowByte s.pc
  | 2 => highByte s.ir
  | 3 => lowByte s.ir
  | k + 4 => s.reg (Fin.ofNat 16 k)

/-- Write the register byte that the view shows at `a`, for `a` below 20 (R33). -/
def State.setViewByte (s : State) (a : Nat) (v : Byte) : State :=
  match a with
  | 0 => { s with pc := wordOfBytes v (lowByte s.pc) }
  | 1 => { s with pc := wordOfBytes (highByte s.pc) v }
  | 2 => { s with ir := wordOfBytes v (lowByte s.ir) }
  | 3 => { s with ir := wordOfBytes (highByte s.ir) v }
  | k + 4 => s.setReg (Fin.ofNat 16 k) v

/-! ## Memory accesses -/

/-- `bytes[a]` as every read sees it: the register view or the cell (R33, R52). -/
def State.readByte (s : State) (a : Nat) : Byte :=
  if s.isView a then s.viewByte a else Memory.read s.bytes a

/-- `bytes[a] <- v` as every write does it: into the register view or the cell (R33, R53). -/
def State.writeByte (s : State) (a : Nat) (v : Byte) : State :=
  if s.isView a then s.setViewByte a v else { s with bytes := Memory.write s.bytes a v }

/-- `MemRead(addr, 1)`: the byte, or the reason to raise (R52). -/
def State.memRead8 (s : State) (a : Nat) : Except HaltReason Byte :=
  if a ≥ Config.memSize then .error (.executionFault a) else .ok (s.readByte a)

/-- `MemRead(addr, 2)`: big-endian, out of range as a whole (R51, R52). -/
def State.memRead16 (s : State) (a : Nat) : Except HaltReason Word :=
  if a + 1 ≥ Config.memSize then .error (.executionFault a)
  else .ok (wordOfBytes (s.readByte a) (s.readByte (a + 1)))

/-- `MemWrite(addr, 1, v)`, the mirror of `MemRead` (R53). Only the host's `Load` performs it. -/
def State.memWrite8 (s : State) (a : Nat) (v : Byte) : Except HaltReason State :=
  if a ≥ Config.memSize then .error (.executionFault a) else .ok (s.writeByte a v)

/-- `MemWrite(addr, 2, v)`: the high byte at the lower address (R53). -/
def State.memWrite16 (s : State) (a : Nat) (v : Word) : Except HaltReason State :=
  if a + 1 ≥ Config.memSize then .error (.executionFault a)
  else .ok ((s.writeByte a (highByte v)).writeByte (a + 1) (lowByte v))

/-! ## The framebuffer -/

/-- `fb[y][x]` (R57). -/
def State.pixel (s : State) (x : Col) (y : Row) : Bool := (s.fb[y.val]'y.isLt).getLsbD x.val

/-- A row with the cell of column `x` set to `b`. -/
def setCell (row : BitVec 64) (x : Col) (b : Bool) : BitVec 64 :=
  if b then row ||| BitVec.twoPow 64 x.val else row &&& ~~~(BitVec.twoPow 64 x.val)

/-- `fb[y][x] <- b` (R57). -/
def State.setPixel (s : State) (x : Col) (y : Row) (b : Bool) : State :=
  { s with fb := s.fb.set y.val (setCell (s.fb[y.val]'y.isLt) x b) y.isLt }

/-- `clear_framebuffer()`: every cell 0 (R57, R160). -/
def State.clearPixels (s : State) : State := { s with fb := Vector.replicate 32 0#64 }

/-- The column of `vx + j`: wraps modulo 64, never clips (R163). -/
def wrapCol (n : Nat) : Col := Fin.ofNat 64 n

/-- The row of `vy + i`: wraps modulo 32, never clips (R163). -/
def wrapRow (n : Nat) : Row := Fin.ofNat 32 n

/-! ## Halting -/

/-- `run <- Halted(reason)` and nothing else: no state is saved, no mode changes, no handler runs (R209). This is the hardware's
whole taking of an exception; there is no return from it (R211). -/
def State.raise (s : State) (r : HaltReason) : State := { s with run := .halted r }

/-! ## Fetch and skip -/

/-- `pc <- pc + 2`. The reduction modulo 65536 is never exercised after an in-range read (R24). -/
def State.advance (s : State) : State := { s with pc := s.pc + 2#16 }

/-- `Fetch()` (R110): the word at `pc`, and the state with `pc` advanced; a faulting read does not advance. -/
def State.fetch (s : State) : Except HaltReason (Word × State) :=
  match s.memRead16 s.pc.toNat with
  | .error r => .error r
  | .ok w => .ok (w, s.advance)

/-- `Skip()` (R115): a second fetch whose word is thrown away, neither decoded nor tested for the sentinel. -/
def State.skip (s : State) : State :=
  match s.fetch with
  | .error r => s.raise r
  | .ok (_, t) => t

/-- Skip when the condition holds (R131 to R133). -/
def State.skipIf (s : State) (c : Bool) : State := if c then s.skip else s

end Sys2Proof.Machine
end

