-- ==== Sys2Proof/Machine/Operands.lean ====
section
/-! DEFINITION. The operand forms (30_encoding.md R82): registers Vx and Vy, the immediate NN, the address NNN, the implicit V0.
No immediate is sign-extended, scaled or shifted. -/

namespace Sys2Proof.Machine

/-- `zext_16` of a byte (R10). -/
def zext8 (b : Byte) : Word := b.setWidth 16

/-- `zext_16` of an address operand NNN (R82). -/
def zext12 (a : Addr12) : Word := a.setWidth 16

/-- `zext_8` of a key code (R182). -/
def zext4 (k : BitVec 4) : Byte := k.setWidth 8

/-- Both register operands, sampled before any write (R152, R166). -/
def State.operands (s : State) (x y : Reg) : Byte × Byte := (s.reg x, s.reg y)

/-- The offset register of JPOff is always V0 (R134). -/
def State.offset (s : State) : Byte := s.reg 0

/-- The target of JPOff: a 16-bit sum, not reduced to 12 bits (R134, D21; notes/assumptions/23.md). -/
def State.offsetTarget (s : State) (nnn : Addr12) : Word := zext8 s.offset + zext12 nnn

end Sys2Proof.Machine
end

