-- ==== Sys2Proof/Machine/Flags.lean ====
section
/-! DEFINITION. The values VF receives, VF being the only flag (10_state.md R22), and the one way a result and its flag are
written (42_load_alu.md R152). -/

namespace Sys2Proof.Machine

/-- A flag as the byte VF holds: 1 or 0 (R22). -/
def flagByte (b : Bool) : Byte := if b then 1#8 else 0#8

/-- The carry out of an 8-bit addition: the true sum exceeds 255 (R146).
PRESUMED: the formula is the spec's general knowledge G1, notes/assumptions/18.md. -/
def carryFlag (a b : Byte) : Bool := decide (a.toNat + b.toNat > 255)

/-- No borrow in `a - b`, equality included (R147, R149). -/
def noBorrowFlag (a b : Byte) : Bool := decide (a.toNat ≥ b.toNat)

/-- The bit SHR shifts out: bit 0 of the old value (R148). -/
def lowBitFlag (a : Byte) : Bool := a.getLsbD 0

/-- The bit SHL shifts out: bit 7 of the old value (R150). -/
def highBitFlag (a : Byte) : Bool := a.getLsbD 7

/-- What DRW writes for one pixel: it went from set to unset (R164). -/
def unsetFlag (old new : Bool) : Bool := old && !new

/-- Write the result to Vx first and the flag to VF second, so that with X = 15 the flag stays (R152).
DESIGN CHOICE of the spec, D5, notes/assumptions/12.md. -/
def State.setResult (s : State) (x : Reg) (v : Byte) (f : Bool) : State := (s.setReg x v).setReg VF (flagByte f)

end Sys2Proof.Machine
end

