-- ==== Sys2Proof/Machine/ControlFlow.lean ====
section
/-! DEFINITION. Control flow: JP, SEImm, SNE, SEDir, JPOff (41_control_flow.md). On entry `pc` is the instruction's address plus 2
(40_fetch_cycle.md R114). -/

namespace Sys2Proof.Machine

/-- JP NNN (R130). -/
def execJp (nnn : Addr12) (s : State) : Host.Outcome State Fault Refusal := .next { s with pc := zext12 nnn }

/-- SEImm Vx, NN (R131). -/
def execSeImm (x : Reg) (nn : Byte) (s : State) : Host.Outcome State Fault Refusal :=
  .next (s.skipIf (s.reg x == nn))

/-- SNE Vx, NN (R132). -/
def execSne (x : Reg) (nn : Byte) (s : State) : Host.Outcome State Fault Refusal :=
  .next (s.skipIf (s.reg x != nn))

/-- SEDir Vx, Vy (R133). -/
def execSeDir (x y : Reg) (s : State) : Host.Outcome State Fault Refusal :=
  .next (s.skipIf (s.reg x == s.reg y))

/-- JPOff NNN (R134). -/
def execJpOff (nnn : Addr12) (s : State) : Host.Outcome State Fault Refusal := .next { s with pc := s.offsetTarget nnn }

end Sys2Proof.Machine
end

