-- ==== Sys2Proof/Machine/Draw.lean ====
section
/-! DEFINITION. Display and index: CLS, LDI, DRW (43_index_draw.md). -/

namespace Sys2Proof.Machine

/-- CLS (R160): the framebuffer and nothing else. -/
def execCls (s : State) : Host.Outcome State Fault Refusal := .next s.clearPixels

/-- LDI NNN (R161). -/
def execLdi (nnn : Addr12) (s : State) : Host.Outcome State Fault Refusal := .next { s with ir := zext12 nnn }

/-- Pixel `j` of sprite row `i`, anchored at `(vx, vy)`: XOR the sprite's bit into the cell, and write VF with this pixel's own
result (R162 to R164). -/
def drawPixel (vx vy : Byte) (i : Nat) (row : Byte) (s : State) (j : Nat) : State :=
  let bit := row.getLsbD (7 - j)
  let px := wrapCol (vx.toNat + j)
  let py := wrapRow (vy.toNat + i)
  let old := s.pixel px py
  let new := old ^^ bit
  (s.setPixel px py new).setReg VF (flagByte (unsetFlag old new))

/-- The eight pixels of sprite row `i`, left to right (R162). -/
def drawRow (vx vy : Byte) (i : Nat) (row : Byte) (s : State) : State :=
  [0, 1, 2, 3, 4, 5, 6, 7].foldl (drawPixel vx vy i row) s

/-- The remaining rows, from row `i` on: each row's byte is read when its turn comes, and a read out of range stops the
instruction there, the rows before it staying drawn (R162, R165; D4, notes/assumptions/15.md). -/
def drawRows (vx vy : Byte) (base : Nat) : Nat → Nat → State → State
  | 0, _, s => s
  | left + 1, i, s =>
    match s.memRead8 (base + i) with
    | .error r => s.raise r
    | .ok row => drawRows vx vy base left (i + 1) (drawRow vx vy i row s)

/-- DRW Vx, Vy, N (R162): Vx, Vy and I are sampled once (R166); with N = 0 nothing is read, drawn or written (R167). -/
def execDrw (x y : Reg) (n : Nat) (s : State) : Host.Outcome State Fault Refusal :=
  let (vx, vy) := s.operands x y
  .next (drawRows vx vy s.ir.toNat n 0 s)

end Sys2Proof.Machine
end

