-- ==== Sys2Proof/Machine/Halt.lean ====
section
/-! DEFINITION. The sentinel word 0x0000 (40_fetch_cycle.md R112). -/

namespace Sys2Proof.Machine

/-- The sentinel halts the core and changes nothing else (R112). -/
def execHaltSentinel (s : State) : Host.Outcome State Fault Refusal := .next (s.raise .sentinel)

end Sys2Proof.Machine
end

