-- ==== Sys2Proof/Machine/LoadAlu.lean ====
section
/-! DEFINITION. Register load and ALU instructions (42_load_alu.md). Operands are sampled first; a flag is written last (R152).
None of them raises anything. -/

namespace Sys2Proof.Machine

/-- LDImm Vx, NN (R140). -/
def execLdImm (x : Reg) (nn : Byte) (s : State) : Host.Outcome State Fault Refusal := .next (s.setReg x nn)

/-- ADDImm Vx, NN (R141): wraps, and writes no flag. -/
def execAddImm (x : Reg) (nn : Byte) (s : State) : Host.Outcome State Fault Refusal := .next (s.setReg x (s.reg x + nn))

/-- LDDir Vx, Vy (R142). -/
def execLdDir (x y : Reg) (s : State) : Host.Outcome State Fault Refusal := .next (s.setReg x (s.reg y))

/-- OR Vx, Vy (R143): writes no flag. -/
def execOr (x y : Reg) (s : State) : Host.Outcome State Fault Refusal :=
  let (a, b) := s.operands x y
  .next (s.setReg x (a ||| b))

/-- AND Vx, Vy (R144): writes no flag. -/
def execAnd (x y : Reg) (s : State) : Host.Outcome State Fault Refusal :=
  let (a, b) := s.operands x y
  .next (s.setReg x (a &&& b))

/-- XOR Vx, Vy (R145): writes no flag. -/
def execXor (x y : Reg) (s : State) : Host.Outcome State Fault Refusal :=
  let (a, b) := s.operands x y
  .next (s.setReg x (a ^^^ b))

/-- ADDDir Vx, Vy (R146): VF is the carry, which the spec requires against its reference (C3). -/
def execAddDir (x y : Reg) (s : State) : Host.Outcome State Fault Refusal :=
  let (a, b) := s.operands x y
  .next (s.setResult x (a + b) (carryFlag a b))

/-- SUB Vx, Vy (R147). -/
def execSub (x y : Reg) (s : State) : Host.Outcome State Fault Refusal :=
  let (a, b) := s.operands x y
  .next (s.setResult x (a - b) (noBorrowFlag a b))

/-- SHR Vx (R148): Vx is shifted, never Vy; the field Y is ignored (R86). -/
def execShr (x : Reg) (s : State) : Host.Outcome State Fault Refusal :=
  let a := s.reg x
  .next (s.setResult x (a >>> 1) (lowBitFlag a))

/-- SUBN Vx, Vy (R149). -/
def execSubn (x y : Reg) (s : State) : Host.Outcome State Fault Refusal :=
  let (a, b) := s.operands x y
  .next (s.setResult x (b - a) (noBorrowFlag b a))

/-- SHL Vx (R150): Vx is shifted, never Vy; the field Y is ignored (R86). -/
def execShl (x : Reg) (s : State) : Host.Outcome State Fault Refusal :=
  let a := s.reg x
  .next (s.setResult x (a <<< 1) (highBitFlag a))

end Sys2Proof.Machine
end

