-- ==== Sys2Proof/Machine/TimerKey.lean ====
section
/-! DEFINITION. Timer and key: LDVDT, LDK, LDDT (44_timer_key.md). The `Tick` and `Key` events are in Events.lean. -/

namespace Sys2Proof.Machine

/-- LDVDT Vx (R180). -/
def execLdvdt (x : Reg) (s : State) : Host.Outcome State Fault Refusal := .next (s.setReg x s.dt)

/-- LDK Vx (R181): enters the wait; Vx is written by the `Key` event that ends it (R182). -/
def execLdk (x : Reg) (s : State) : Host.Outcome State Fault Refusal := .next { s with run := .waitKey x }

/-- LDDT Vx (R183). -/
def execLddt (x : Reg) (s : State) : Host.Outcome State Fault Refusal := .next { s with dt := s.reg x }

end Sys2Proof.Machine
end

