-- ==== Sys2Proof/Machine/Events.lean ====
section
/-! DEFINITION. The host's events but `Cycle` (00_scope.md R7), what the host reads, and which event comes next. An event in a run
state with no row for it changes nothing (40_fetch_cycle.md R117, R118). -/

namespace Sys2Proof.Machine

/-- `Reset`: a fresh machine in any state (R240). The open parameters are the host's and stay. -/
def State.onReset (s : State) : State := { State.reset with env := s.env }

/-- `Load(addr, v)`: in Loading, `MemWrite(addr, 1, v)` (R241); under `aliased` a register byte below 20 (R33). -/
def State.onLoad (s : State) (a : Addr12) (v : Byte) : State :=
  match s.run with
  | .loading =>
    match s.memWrite8 a.toNat v with
    | .ok t => t
    | .error _ => s
  | .running => s
  | .waitKey _ => s
  | .halted _ => s

/-- `Start`: in Loading, `pc <- 0x0200; run <- Running` (R242). -/
def State.onStart (s : State) : State :=
  match s.run with
  | .loading => { s with pc := Config.origin, run := .running }
  | .running => s
  | .waitKey _ => s
  | .halted _ => s

/-- The timer counts down by 1 and stays at 0 (R214). -/
def countDown (dt : Byte) : Byte := if dt.toNat > 0 then dt - 1#8 else dt

/-- `Tick`: in Running and WaitKey the timer counts (R184, R214). -/
def State.onTick (s : State) : State :=
  match s.run with
  | .loading => s
  | .running => { s with dt := countDown s.dt }
  | .waitKey _ => { s with dt := countDown s.dt }
  | .halted _ => s

/-- `Key(k)`: in WaitKey(r), Vr receives the code and the core runs on (R182); a key at any other time is not stored (R118). -/
def State.onKey (s : State) (k : BitVec 4) : State :=
  match s.run with
  | .loading => s
  | .running => s
  | .waitKey r => { s.setReg r (zext4 k) with run := .running }
  | .halted _ => s

/-! ## What the host reads -/

/-- `FbRead(x, y)` returns the cell and changes nothing (R65). -/
def State.fbRead (s : State) (x : Col) (y : Row) : Bool := s.pixel x y

/-- The halt code (R200, D13): 0 not halted, 1 Sentinel, 2 DecodeError, 3 ExecutionFault. -/
def RunState.code : RunState → Nat
  | .loading => 0
  | .running => 0
  | .waitKey _ => 0
  | .halted .sentinel => 1
  | .halted (.decodeError _ _) => 2
  | .halted (.executionFault _) => 3

/-- What `Status` shows (R7, R205). -/
structure StatusView where
  run : RunState
  code : Nat
  word : Option Word
  addr : Option Nat
deriving DecidableEq, Repr

/-- `Status`: the run state, the halt code, and what the halt recorded; it changes nothing (R205). -/
def State.status (s : State) : StatusView where
  run := s.run
  code := s.run.code
  word :=
    match s.run with
    | .halted (.decodeError w _) => some w
    | .halted (.executionFault _) => none
    | .halted .sentinel => none
    | .loading => none
    | .running => none
    | .waitKey _ => none
  addr :=
    match s.run with
    | .halted (.decodeError _ a) => some a
    | .halted (.executionFault a) => some a
    | .halted .sentinel => none
    | .loading => none
    | .running => none
    | .waitKey _ => none

/-! ## The host's schedule -/

/-- Where an event stands in its slice: `Tick`, then `FbRead`, then `Key` or `Quit`, then `Cycle` (60_exceptions.md R208,
40_fetch_cycle.md R119). The other events are no part of a slice and have no place in it. -/
def sliceRank : Event → Option Nat
  | .tick => some 0
  | .fbRead _ _ => some 1
  | .key _ => some 2
  | .quit => some 2
  | .cycle => some 3
  | .reset => none
  | .load _ _ => none
  | .start => none
  | .status => none

/-- Whether `a` is taken before `b` when both fall in one slice (R208). -/
def precedes (a b : Event) : Bool :=
  match sliceRank a, sliceRank b with
  | some i, some j => decide (i < j)
  | some _, none => false
  | none, _ => false

/-- Whether event `ev`, arriving in run state `r`, ends the slice: a `Cycle` does; a key that ends a wait does, since that slice's
`Cycle` may be left to the next one (R182); `Start` and `Reset` begin afresh.
DESIGN CHOICE, notes/assumptions/29.md. -/
def endsSlice (r : RunState) (ev : Event) : Bool :=
  match ev with
  | .reset => true
  | .load _ _ => false
  | .start =>
    match r with
    | .loading => true
    | .running => false
    | .waitKey _ => false
    | .halted _ => false
  | .cycle => true
  | .tick => false
  | .key _ =>
    match r with
    | .waitKey _ => true
    | .loading => false
    | .running => false
    | .halted _ => false
  | .fbRead _ _ => false
  | .status => false
  | .quit => false

/-- The pending events that fall in the slice under way: up to the first that ends it, and with it (notes/assumptions/29.md). -/
def sliceOf (r : RunState) : List Event → List Event
  | [] => []
  | ev :: rest => if endsSlice r ev then [ev] else ev :: sliceOf r rest

/-- The event of a slice that is taken first (R208): the oldest of those that none precedes, except that an oldest event with no
place in the slice is taken at once. -/
def firstOf (oldest : Event) (rest : List Event) : Event :=
  rest.foldl (fun best ev => if precedes ev best then ev else best) oldest

/-- Whether the nominal schedule still owes the slice its `Tick`: none has come, and the host has listed neither a `Tick` nor the
slice's `Cycle` itself.
DESIGN CHOICE, notes/assumptions/7.md. -/
def State.owesTick (s : State) : Bool :=
  decide (s.env.pacing = .nominal) && !s.env.ticked && decide (Event.tick ∉ s.env.pending)
    && decide (Event.cycle ∉ s.env.pending)

/-- The event that comes next: of the pending events of the slice the one R208 puts first, or before it the `Tick` that the nominal
schedule owes; with nothing pending, what the pacing gives. `none` after `Quit` (R221). In Halted, where the document's loop has ended (R119),
the pacing goes on and its events do nothing (R118).
DESIGN CHOICE, notes/assumptions/6.md, 7.md, 29.md and, for Halted, 30.md. -/
def State.nextEvent (s : State) : Option Event :=
  match sliceOf s.run s.env.pending with
  | oldest :: rest =>
    let ev := firstOf oldest rest
    if s.owesTick && precedes .tick ev then some .tick else some ev
  | [] =>
    match s.env.pacing with
    | .nominal => if s.env.ticked then some .cycle else some .tick
    | .cyclesOnly => some .cycle
    | .stopped => none

/-- The schedule once event `ev`, arriving in run state `r`, has been taken from it; after `Quit` no event comes (R221). -/
def scheduleAfter (e : Env) (r : RunState) (ev : Event) : Env :=
  match ev with
  | .quit => { e with pending := [], pacing := .stopped }
  | .tick => { e with pending := e.pending.erase ev, ticked := true }
  | .reset => { e with pending := e.pending.erase ev, ticked := e.ticked && !endsSlice r ev }
  | .load _ _ => { e with pending := e.pending.erase ev, ticked := e.ticked && !endsSlice r ev }
  | .start => { e with pending := e.pending.erase ev, ticked := e.ticked && !endsSlice r ev }
  | .cycle => { e with pending := e.pending.erase ev, ticked := e.ticked && !endsSlice r ev }
  | .key _ => { e with pending := e.pending.erase ev, ticked := e.ticked && !endsSlice r ev }
  | .fbRead _ _ => { e with pending := e.pending.erase ev, ticked := e.ticked && !endsSlice r ev }
  | .status => { e with pending := e.pending.erase ev, ticked := e.ticked && !endsSlice r ev }

/-- The state with event `ev` taken from the schedule; the block is untouched. -/
def State.take (s : State) (ev : Event) : State := { s with env := scheduleAfter s.env s.run ev }

/-- Whether a `Tick` would be the second of its slice in Running, which the spec gives no move (R247, U12). In WaitKey any number
may come (D10, R184). -/
def State.secondTick (s : State) : Bool := s.env.ticked && decide (s.run = .running)

end Sys2Proof.Machine
end

