-- ==== Sys2Proof/Machine/Cycle.lean ====
section
/-! DEFINITION. The `Cycle` event (40_fetch_cycle.md R111 to R114), and every event's effect in one place (00_scope.md R7). -/

namespace Sys2Proof.Machine

/-- Once a word is fetched: the sentinel test and the decoder (both in `decode`), then `Execute` or a `DecodeError` with the word
and the address it was fetched from, `pc - 2` (R111 to R114). -/
def runWord (w : Word) (s : State) : Host.Outcome State Fault Refusal :=
  match decode w with
  | none => .next (s.raise (.decodeError w (s.pc.toNat - 2)))
  | some i => exec i s

/-- `Cycle()` in state Running (R111). -/
def cycleRunning (s : State) : Host.Outcome State Fault Refusal :=
  match s.fetch with
  | .error r => .next (s.raise r)
  | .ok (w, t) => runWord w t

/-- The `Cycle` event: one instruction or a halt in Running, nothing in any other state (R111, R118). -/
def cycle (s : State) : Host.Outcome State Fault Refusal :=
  match s.run with
  | .running => cycleRunning s
  | .loading => .next s
  | .waitKey _ => .next s
  | .halted _ => .next s

/-- An event's effect, the event having been taken from the schedule. -/
def applyEvent (ev : Event) (s : State) : Host.Outcome State Fault Refusal :=
  match ev with
  | .reset => .next s.onReset
  | .load a v => .next (s.onLoad a v)
  | .start => .next s.onStart
  | .cycle => cycle s
  | .tick => .next s.onTick
  | .key k => .next (s.onKey k)
  | .fbRead _ _ => .next s
  | .status => .next s
  | .quit => .next s

/-- Deliver an event: take it from the schedule and give it its effect, except a second `Tick` of a slice (U12: refuse). -/
def deliver (ev : Event) (s : State) : Host.Outcome State Fault Refusal :=
  if ev = .tick ∧ s.secondTick = true then .refused .secondTickInSlice
  else applyEvent ev (s.take ev)

/-- Whether the two bytes at `pc` are plain memory cells, which an instruction word can be put into. -/
def State.canHoldWord (s : State) : Bool :=
  decide (s.pc.toNat + 1 < Config.memSize) && !s.isView s.pc.toNat && decide (s.run ≠ .loading)

/-- The address `withFetchWord` stores at: `pc`, or the program origin where a run has not begun or `pc` can hold no word. -/
def State.fetchSlot (s : State) : Word := if s.canHoldWord then s.pc else Config.origin

/-- The state with the word `w` where the next `Cycle` fetches, Running, and that `Cycle` the next event. From `State.reset` it is
what `Load`, `Load`, `Start` leave (R241, R242; notes/assumptions/10.md). -/
def State.placeWord (s : State) (w : Word) : State :=
  let a := s.fetchSlot.toNat
  let t := (s.writeByte a (highByte w)).writeByte (a + 1) (lowByte w)
  { t with pc := s.fetchSlot, run := .running, env := { t.env with pending := .cycle :: t.env.pending } }

end Sys2Proof.Machine
end

