-- ==== Sys2Proof/Machine/Step.lean ====
section
/-! DEFINITION. One step of the machine: the host's next event (00_scope.md R8). -/

namespace Sys2Proof.Machine

/-- One step: deliver the next event, whole (R8). With no event to come, the host having quit, there is no step (R221). -/
def step (s : State) : Host.Outcome State Fault Refusal :=
  match s.nextEvent with
  | none => .fault .hostQuit
  | some ev => deliver ev s

/-- `s` with the instruction of the table's word `w` of `nbits` bits placed so that the next step fetches and runs it. -/
def State.withFetchWord (s : State) (nbits w : Nat) : State := s.placeWord (BitVec.ofNat 16 (w % 2 ^ nbits))

end Sys2Proof.Machine
end

