-- ==== Sys2Proof/Safety.lean ====
section
/-! DEFINITION. The terms claims are made in: a finished run, a faulted state, what a step leaves unchanged, the invariant of
10_state.md R34, the transitions of 40_fetch_cycle.md R117, and what a sprite and a program image are. -/

namespace Sys2Proof.Machine

/-! ## The end of a run -/

/-- A finished program: `Halted(Sentinel)`, that and only that (R203, R248). -/
def State.finished (s : State) : Bool := decide (s.run = .halted .sentinel)

/-- A faulted state, never a final one (R209, R248). -/
def State.faulted (s : State) : Bool :=
  match s.run with
  | .halted (.decodeError _ _) => true
  | .halted (.executionFault _) => true
  | .halted .sentinel => false
  | .loading => false
  | .running => false
  | .waitKey _ => false

/-- A safe run of `k` steps: every one of them is taken, and no fault of the core is met on the way (R248). -/
def State.SafeRun (s : State) (k : Nat) : Prop :=
  ∀ j, j ≤ k → ∃ t : State, Sys2Proof.core.run j s = .next t ∧ t.faulted = false

/-! ## What stays unchanged -/

/-- Every general register but those listed holds what it held. -/
def SameRegs (s t : State) (but : List Reg) : Prop := ∀ r, r ∉ but → t.reg r = s.reg r

/-- Every byte of memory reads as before, a byte that is a view of a register apart (R33), and the cells are the same. -/
def SameMemory (s t : State) : Prop := t.bytes = s.bytes ∧ ∀ a, s.isView a = false → t.readByte a = s.readByte a

/-- The frame of an instruction that writes general registers only: nothing but the listed ones changes. -/
structure RegFrame (s t : State) (but : List Reg) : Prop where
  regs : SameRegs s t but
  pc : t.pc = s.pc
  ir : t.ir = s.ir
  dt : t.dt = s.dt
  memory : SameMemory s t
  fb : t.fb = s.fb
  run : t.run = s.run
  env : t.env = s.env

/-- The frame of an instruction that writes `pc` only. -/
structure PcFrame (s t : State) : Prop where
  regs : SameRegs s t []
  ir : t.ir = s.ir
  dt : t.dt = s.dt
  memory : SameMemory s t
  fb : t.fb = s.fb
  run : t.run = s.run
  env : t.env = s.env

/-- The seven pieces of the block's state (R20) are the same; the open parameters may differ. -/
structure SameBlock (s t : State) : Prop where
  x : t.x = s.x
  pc : t.pc = s.pc
  ir : t.ir = s.ir
  dt : t.dt = s.dt
  bytes : t.bytes = s.bytes
  fb : t.fb = s.fb
  run : t.run = s.run

/-! ## The invariant (R34) -/

/-- What holds in every reachable state: `pc <= 0x10FE` once a run has begun, `I <= 0x0FFF` where the loader cannot preset it, and
memory in its canonical form below 4096. (`dt <= 255` and cells of one bit hold by type.) -/
structure State.Inv (s : State) : Prop where
  pc_bound : s.run ≠ .loading → s.pc.toNat ≤ 0x10FE
  ir_bound : s.env.regAlias = .separate → s.ir.toNat ≤ 0x0FFF
  memory : Memory.wf s.bytes = true

/-! ## The transitions of the run state (R117) -/

/-- The run states that event `ev` can lead to from `r`, by the table of R117 with R118 for the events it does not list. -/
def Transition (r : RunState) (ev : Event) (r' : RunState) : Prop :=
  match r, ev with
  | _, .reset => r' = .loading
  | .loading, .start => r' = .running
  | .running, .cycle => r' = .running ∨ (∃ x, r' = .waitKey x) ∨ ∃ z, r' = .halted z
  | .waitKey _, .key _ => r' = .running
  | r, _ => r' = r

/-! ## Program images -/

/-- What a sequence of loads leaves at `a`: the last value loaded there, or 0 (R243). -/
def imageByte (loads : List (Addr12 × Byte)) (a : Nat) : Byte :=
  loads.foldl (fun b l => if l.1.toNat = a then l.2 else b) 0#8

/-! ## Sprites -/

/-- The byte row `i` of a sprite reads (R162): `bytes[I + i]` as it stands before the instruction, except that under `aliased` the
address 19 is VF, which the last pixel of the row before has just written (R33, R164). -/
def spriteByte (s : State) (x y : Reg) (i : Nat) : Byte :=
  let a := s.ir.toNat + i
  if s.isView a = true ∧ a = 19 ∧ 0 < i then
    flagByte ((s.readByte 18).getLsbD 0
      && s.pixel (wrapCol ((s.reg x).toNat + 7)) (wrapRow ((s.reg y).toNat + (i - 1))))
  else s.readByte a

/-- The sprite bit that falls on cell `(c, r)` when `n` rows are drawn at `(Vx, Vy)`: column offset `j` and row offset `i` are the
distances from the anchor modulo 64 and 32 (R163); `j = 0` is the most significant bit (R162). No bit falls on a cell outside. -/
def spriteBit (s : State) (x y : Reg) (n : Nat) (c : Col) (r : Row) : Bool :=
  let j := (c.val + 64 - (s.reg x).toNat % 64) % 64
  let i := (r.val + 32 - (s.reg y).toNat % 32) % 32
  decide (i < n) && decide (j < 8) && (spriteByte s x y i).getLsbD (7 - j)

end Sys2Proof.Machine
end

