-- ==== Sys2Proof/Certificates/Slice0/Obligations.lean ====
section
/-! DEFINITION. The statements for the provers. Each names the rule of spec/ it comes from. -/

open Sys2Proof Sys2Proof.Machine

/-! ## Reset, loading, start -/

/-- R240: `Reset` in any state gives the same zeroed machine, and that machine is the state after reset. The timer's 0 and the state
Loading are the spec's own decisions (its D2 and D9; notes/assumptions/3.md, 6.md). -/
def Obligations.ResetRebuildsTheMachine : Prop :=
  ∀ s : State, s.nextEvent = some .reset → ∃ t : State, step s = .next t ∧ SameBlock State.reset t ∧
    (∀ r, t.reg r = 0#8) ∧ t.ir = 0#16 ∧ t.pc = 0#16 ∧ t.dt = 0#8 ∧ (∀ a, t.readByte a = 0#8) ∧
    (∀ c r, t.pixel c r = false) ∧ t.run = .loading

/-- R242: `Start`, in Loading, does `pc <- 0x0200; run <- Running` and writes nothing else. -/
def Obligations.StartEntersAtTheOrigin : Prop :=
  ∀ s : State, s.nextEvent = some .start → s.run = .loading → ∃ t : State, step s = .next t ∧
    t.pc.toNat = 0x200 ∧ t.run = .running ∧ t.x = s.x ∧ t.ir = s.ir ∧ t.dt = s.dt ∧ t.bytes = s.bytes ∧ t.fb = s.fb

/-- R241: `Load(addr, v)`, in Loading, writes that byte and no other; where the byte is no view of a register (R33) it writes memory
only. In any other run state it does nothing, which is the spec's own decision (its D15; notes/assumptions/17.md). -/
def Obligations.LoadWritesOneByte : Prop :=
  ∀ (s : State) (a : Addr12) (v : Byte), s.nextEvent = some (.load a v) → Memory.wf s.bytes = true →
    ∃ t : State, step s = .next t ∧
      (s.run = .loading →
        t.readByte a.toNat = v ∧ (∀ b, b ≠ a.toNat → t.readByte b = s.readByte b) ∧
        (s.isView a.toNat = false → t.x = s.x ∧ t.pc = s.pc ∧ t.ir = s.ir) ∧
        (s.isView a.toNat = true → t.bytes = s.bytes) ∧
        t.dt = s.dt ∧ t.fb = s.fb ∧ t.run = .loading) ∧
      (s.run ≠ .loading → SameBlock s t)

/-- R51, R53: a word the loader writes as two bytes reads back big-endian, and no other byte changes. -/
def Obligations.LoaderWordReadsBackBigEndian : Prop :=
  ∀ (s : State) (a : Nat) (v : Word), Memory.wf s.bytes = true → a + 1 < 4096 →
    ∃ t : State, s.memWrite16 a v = .ok t ∧ (t.readByte a).toNat = v.toNat / 256 ∧
      (t.readByte (a + 1)).toNat = v.toNat % 256 ∧ t.memRead16 a = .ok v ∧
      ∀ b, b ≠ a → b ≠ a + 1 → t.readByte b = s.readByte b

/-- R243: after `Reset`, any loads and `Start`, the machine is a function of the image alone (`REG_ALIAS = separate`): every byte is
the last value loaded there or 0, and everything else is at its launch value. The timer's 0 and the state Loading are the spec's own
decisions (its D2 and D9; notes/assumptions/3.md, 6.md). -/
def Obligations.LaunchStateIsTheImage : Prop :=
  ∀ (loads : List (Addr12 × Byte)) (rest : List Event) (s : State), s.env.regAlias = .separate →
    s.env.pending = .reset :: (loads.map fun l => Event.load l.1 l.2) ++ .start :: rest →
    ∃ t : State, Sys2Proof.core.run (loads.length + 2) s = .next t ∧ (∀ a, t.readByte a = imageByte loads a) ∧
      (∀ r, t.reg r = 0#8) ∧ t.ir = 0#16 ∧ t.dt = 0#8 ∧ (∀ c r, t.pixel c r = false) ∧ t.pc.toNat = 0x200 ∧
      t.run = .running ∧ t.env.pending = rest

/-! ## Fetch and cycle -/

/-- R110, with R51 and R52: a fetch reads the two bytes at `pc`, high byte first, and adds 2 to `pc` without wrapping; from 4095 on it
raises `ExecutionFault(pc)`. The fault is the spec's own decision (its D3; notes/assumptions/15.md). -/
def Obligations.FetchReadsAWordAndAdvances : Prop :=
  ∀ s : State,
    (s.pc.toNat + 1 < 4096 → ∃ (w : Word) (t : State), s.fetch = .ok (w, t) ∧
      w.toNat = 256 * (s.readByte s.pc.toNat).toNat + (s.readByte (s.pc.toNat + 1)).toNat ∧
      t.pc.toNat = s.pc.toNat + 2 ∧ PcFrame s t) ∧
    (4096 ≤ s.pc.toNat + 1 → s.fetch = .error (.executionFault s.pc.toNat))

/-- R111, R114: when the next event is a `Cycle` in Running and the bytes at `pc` decode to `i`, the step is `exec i` of the state with
that event taken from the schedule and `pc` advanced by 2. -/
def Obligations.StepRunsTheDecodedInstruction : Prop :=
  ∀ (s : State) (i : Instr), s.nextEvent = some .cycle → s.run = .running → s.pc.toNat + 1 < 4096 →
    decode (wordOfBytes (s.readByte s.pc.toNat) (s.readByte (s.pc.toNat + 1))) = some i →
    step s = exec i { s.take .cycle with pc := s.pc + 2#16 }

/-- A word placed for the next step is the instruction that step runs, from any state: notes/assumptions/10.md. -/
def Obligations.PlacedWordRunsNext : Prop :=
  ∀ (s : State) (w : Nat) (i : Instr), Memory.wf s.bytes = true → decodeTableWord 16 w = some i →
    ∃ u : State, step (s.withFetchWord 16 w) = exec i u ∧ u.run = .running ∧
      u.pc.toNat = (s.withFetchWord 16 w).pc.toNat + 2 ∧ u.x = s.x ∧ u.ir = s.ir ∧ u.dt = s.dt ∧ u.fb = s.fb

/-- R112: the sentinel word halts the core with `pc` two past it and changes nothing else, and this is the only way a program ends
normally. -/
def Obligations.SentinelWordIsTheOnlyNormalEnd : Prop :=
  ∀ s : State, s.run ≠ .halted .sentinel →
    ((∃ t : State, step s = .next t ∧ t.run = .halted .sentinel) ↔
      (s.nextEvent = some .cycle ∧ s.run = .running ∧ s.pc.toNat + 1 < 4096 ∧
        s.readByte s.pc.toNat = 0#8 ∧ s.readByte (s.pc.toNat + 1) = 0#8)) ∧
    ∀ t : State, step s = .next t → t.run = .halted .sentinel →
      t.pc.toNat = s.pc.toNat + 2 ∧ t.x = s.x ∧ t.ir = s.ir ∧ t.dt = s.dt ∧ t.bytes = s.bytes ∧ t.fb = s.fb

/-- R113, R201: a fetched word that is not 0x0000 and is in no row of the opcode map halts the core with `DecodeError`; `pc` is two past
it and nothing else changes. That the address is recorded is the spec's own decision (its D13; notes/assumptions/22.md). -/
def Obligations.UnlistedWordHaltsWithDecodeError : Prop :=
  ∀ (s : State) (w : Word), s.nextEvent = some .cycle → s.run = .running → s.pc.toNat + 1 < 4096 →
    w = wordOfBytes (s.readByte s.pc.toNat) (s.readByte (s.pc.toNat + 1)) → w ≠ 0#16 →
    (∀ r ∈ opRows, r.hits w = false) →
    ∃ t : State, step s = .next t ∧ t.run = .halted (.decodeError w s.pc.toNat) ∧ t.pc.toNat = s.pc.toNat + 2 ∧
      t.x = s.x ∧ t.ir = s.ir ∧ t.dt = s.dt ∧ t.bytes = s.bytes ∧ t.fb = s.fb

/-- R110, R202: a fetch at 4095 or above halts the core with `ExecutionFault(pc)`; `pc` is not advanced and nothing else changes. That
it faults and leaves `pc` is the spec's own decision (its D3 and D4; notes/assumptions/15.md). -/
def Obligations.FetchOutOfRangeHalts : Prop :=
  ∀ s : State, s.nextEvent = some .cycle → s.run = .running → 4096 ≤ s.pc.toNat + 1 →
    ∃ t : State, step s = .next t ∧ t.run = .halted (.executionFault s.pc.toNat) ∧ t.pc = s.pc ∧
      t.x = s.x ∧ t.ir = s.ir ∧ t.dt = s.dt ∧ t.bytes = s.bytes ∧ t.fb = s.fb

/-! ## Control flow -/

/-- R131, R132, R133 with R115: the skips test Vx = NN, Vx /= NN and Vx = Vy; when the test holds `pc` moves by 2 more, else nothing
changes. When the word to skip is out of range the skip raises `ExecutionFault(pc)` instead and `pc` stays: that the skip reads is the
spec's own decision (its D8; notes/assumptions/16.md). -/
def Obligations.SkipsMoveTwoMoreWhenTheTestHolds : Prop :=
  ∀ (s : State) (i : Instr) (c : Prop),
    ((∃ x nn, i = .seImm x nn ∧ (c ↔ s.reg x = nn)) ∨ (∃ x nn, i = .sne x nn ∧ (c ↔ s.reg x ≠ nn)) ∨
      (∃ x y, i = .seDir x y ∧ (c ↔ s.reg x = s.reg y))) →
    (¬ c → exec i s = .next s) ∧
    (c → s.pc.toNat + 1 < 4096 → ∃ t : State, exec i s = .next t ∧ t.pc.toNat = s.pc.toNat + 2 ∧ PcFrame s t) ∧
    (c → 4096 ≤ s.pc.toNat + 1 → ∃ t : State, exec i s = .next t ∧ t.run = .halted (.executionFault s.pc.toNat) ∧
      t.pc = s.pc ∧ t.x = s.x ∧ t.ir = s.ir ∧ t.dt = s.dt ∧ SameMemory s t ∧ t.fb = s.fb ∧ t.env = s.env)

/-- R130: JP writes NNN, zero-extended, to `pc` and nothing else. -/
def Obligations.JpLoadsTheProgramCounter : Prop :=
  ∀ (s : State) (nnn : Addr12), ∃ t : State, exec (.jp nnn) s = .next t ∧ t.pc.toNat = nnn.toNat ∧ PcFrame s t

/-- R134: JPOff writes V0 + NNN to `pc`, not reduced to 12 bits, and nothing else. The unmasked sum is the spec's own decision (its
D21; notes/assumptions/23.md). -/
def Obligations.JpOffAddsV0WithoutMask : Prop :=
  ∀ (s : State) (nnn : Addr12), ∃ t : State, exec (.jpOff nnn) s = .next t ∧
    t.pc.toNat = (s.reg 0).toNat + nnn.toNat ∧ PcFrame s t

/-! ## Loads and arithmetic -/

/-- R140, R141, R142: LDImm writes NN, ADDImm the sum modulo 256, LDDir the value of Vy, each to Vx; no other register, VF among them,
and nothing else changes. -/
def Obligations.LoadsWriteTheDestinationOnly : Prop :=
  ∀ (s : State) (x y : Reg) (nn : Byte),
    (∃ t : State, exec (.ldImm x nn) s = .next t ∧ t.reg x = nn ∧ RegFrame s t [x]) ∧
    (∃ t : State, exec (.addImm x nn) s = .next t ∧ (t.reg x).toNat = ((s.reg x).toNat + nn.toNat) % 256 ∧
      RegFrame s t [x]) ∧
    (∃ t : State, exec (.ldDir x y) s = .next t ∧ t.reg x = s.reg y ∧ RegFrame s t [x])

/-- R143, R144, R145: OR, AND and XOR work bit by bit on Vx and Vy as they were, write Vx, and leave VF and all else alone. -/
def Obligations.LogicLeavesTheFlagAlone : Prop :=
  ∀ (s : State) (x y : Reg),
    (∃ t : State, exec (.or x y) s = .next t ∧
      (∀ k, (t.reg x).getLsbD k = ((s.reg x).getLsbD k || (s.reg y).getLsbD k)) ∧ RegFrame s t [x]) ∧
    (∃ t : State, exec (.and x y) s = .next t ∧
      (∀ k, (t.reg x).getLsbD k = ((s.reg x).getLsbD k && (s.reg y).getLsbD k)) ∧ RegFrame s t [x]) ∧
    (∃ t : State, exec (.xor x y) s = .next t ∧
      (∀ k, (t.reg x).getLsbD k = ((s.reg x).getLsbD k ^^ (s.reg y).getLsbD k)) ∧ RegFrame s t [x])

/-- R146: ADDDir writes the sum modulo 256 to Vx and 1 to VF exactly when the sum exceeds 255, else 0. The carry formula is the spec's
general knowledge (its G1; notes/assumptions/18.md), and that with X = 15 the flag stays is its own decision (D5;
notes/assumptions/12.md). -/
def Obligations.AddDirWritesSumAndCarry : Prop :=
  ∀ (s : State) (x y : Reg), ∃ t : State, exec (.addDir x y) s = .next t ∧
    (x ≠ 15 → (t.reg x).toNat = ((s.reg x).toNat + (s.reg y).toNat) % 256) ∧
    (t.reg 15).toNat = (if (s.reg x).toNat + (s.reg y).toNat > 255 then 1 else 0) ∧ RegFrame s t [x, 15]

/-- R147, R149: SUB writes Vx - Vy and SUBN Vy - Vx, modulo 256, to Vx, and VF is 1 when there is no borrow, else 0, both from the values
before. That with X = 15 the flag stays is the spec's own decision (its D5; notes/assumptions/12.md). -/
def Obligations.SubtractionsWriteDifferenceAndNoBorrow : Prop :=
  ∀ (s : State) (x y : Reg),
    (∃ t : State, exec (.sub x y) s = .next t ∧
      (x ≠ 15 → (t.reg x).toNat = ((s.reg x).toNat + 256 - (s.reg y).toNat) % 256) ∧
      (t.reg 15).toNat = (if (s.reg x).toNat ≥ (s.reg y).toNat then 1 else 0) ∧ RegFrame s t [x, 15]) ∧
    (∃ t : State, exec (.subn x y) s = .next t ∧
      (x ≠ 15 → (t.reg x).toNat = ((s.reg y).toNat + 256 - (s.reg x).toNat) % 256) ∧
      (t.reg 15).toNat = (if (s.reg y).toNat ≥ (s.reg x).toNat then 1 else 0) ∧ RegFrame s t [x, 15])

/-- R148, R150: SHR and SHL shift Vx by one bit and put the bit shifted out into VF, whatever the Y field is. That with X = 15 the flag
stays is the spec's own decision (its D5; notes/assumptions/12.md). -/
def Obligations.ShiftsMoveVxByOneBit : Prop :=
  ∀ (s : State) (x y : Reg),
    (∃ t : State, exec (.shr x y) s = .next t ∧ (x ≠ 15 → (t.reg x).toNat = (s.reg x).toNat / 2) ∧
      (t.reg 15).toNat = (s.reg x).toNat % 2 ∧ RegFrame s t [x, 15]) ∧
    (∃ t : State, exec (.shl x y) s = .next t ∧ (x ≠ 15 → (t.reg x).toNat = ((s.reg x).toNat * 2) % 256) ∧
      (t.reg 15).toNat = (s.reg x).toNat / 128 ∧ RegFrame s t [x, 15])

/-! ## Display and index -/

/-- R160: CLS sets all 2048 cells to 0 and changes nothing else. -/
def Obligations.ClsClearsEveryCell : Prop :=
  ∀ s : State, ∃ t : State, exec .cls s = .next t ∧ (∀ c r, t.pixel c r = false) ∧ SameRegs s t [] ∧ t.pc = s.pc ∧
    t.ir = s.ir ∧ t.dt = s.dt ∧ SameMemory s t ∧ t.run = s.run ∧ t.env = s.env

/-- R161: LDI writes NNN, zero-extended, to I and changes nothing else; no address faults. -/
def Obligations.LdiLoadsTheIndexRegister : Prop :=
  ∀ (s : State) (nnn : Addr12), ∃ t : State, exec (.ldi nnn) s = .next t ∧ t.ir.toNat = nnn.toNat ∧ SameRegs s t [] ∧
    t.pc = s.pc ∧ t.dt = s.dt ∧ SameMemory s t ∧ t.fb = s.fb ∧ t.run = s.run ∧ t.env = s.env

/-- R162, R163: with every row in range, DRW XORs each sprite bit into the one cell it falls on, coordinates wrapping on both axes, and
changes no other cell; of the rest only VF may change. Vx, Vy and I count as they stood before, which is the spec's own decision for
VF as a coordinate (its D6; notes/assumptions/13.md); that with N = 0 nothing is read, drawn or written is its own decision too (D7;
notes/assumptions/14.md). -/
def Obligations.DrwXorsEachSpriteBitOnce : Prop :=
  ∀ (s : State) (x y : Reg) (n : Nat), n < 16 → (n = 0 ∨ s.ir.toNat + n ≤ 4096) →
    ∃ t : State, exec (.drw x y n) s = .next t ∧
      (∀ c r, t.pixel c r = (s.pixel c r ^^ spriteBit s x y n c r)) ∧ SameRegs s t [15] ∧ t.pc = s.pc ∧ t.ir = s.ir ∧
      t.dt = s.dt ∧ SameMemory s t ∧ t.run = s.run ∧ t.env = s.env

/-- R164, R167: after DRW with every row in range, VF is 1 exactly when the last pixel of the last row went from set to unset; with
N = 0 it keeps its value, and so does all else. The case N = 0 is the spec's own decision (its D7; notes/assumptions/14.md), and so
is that with X = 15 or Y = 15 VF as it stood before places the last pixel (its D6; notes/assumptions/13.md). -/
def Obligations.DrwFlagIsTheLastPixel : Prop :=
  ∀ (s : State) (x y : Reg) (n : Nat), n < 16 →
    (n = 0 → exec (.drw x y n) s = .next s) ∧
    (0 < n → s.ir.toNat + n ≤ 4096 → ∃ t : State, exec (.drw x y n) s = .next t ∧
      (t.reg 15).toNat = (if (spriteByte s x y (n - 1)).getLsbD 0 = true ∧
        s.pixel (wrapCol ((s.reg x).toNat + 7)) (wrapRow ((s.reg y).toNat + (n - 1))) = true then 1 else 0))

/-- R165: when a row lies at 4096 or above, DRW draws the rows before it, as a DRW of that many rows does, and halts the core with
`ExecutionFault` and the address of the first row out of range. Fault and partial effect are the spec's own decisions (its D3 and D4;
notes/assumptions/15.md). -/
def Obligations.DrwFaultsAtTheFirstRowOutOfRange : Prop :=
  ∀ (s : State) (x y : Reg) (n : Nat), n < 16 → 0 < n → 4096 < s.ir.toNat + n →
    ∃ t : State, exec (.drw x y (4096 - s.ir.toNat)) s = .next t ∧ t.run = s.run ∧
      exec (.drw x y n) s = .next { t with run := .halted (.executionFault (s.ir.toNat + (4096 - s.ir.toNat))) }

/-- R162: drawing a sprite a second time at the same place restores the framebuffer, where neither coordinate is VF (which the first
draw may change) and no row is a view of a register. -/
def Obligations.DrawingTwiceRestoresTheFramebuffer : Prop :=
  ∀ (s t u : State) (x y : Reg) (n : Nat), n < 16 → x ≠ 15 → y ≠ 15 →
    (n = 0 ∨ s.ir.toNat + n ≤ 4096) → (∀ i, i < n → s.isView (s.ir.toNat + i) = false) →
    exec (.drw x y n) s = .next t → exec (.drw x y n) t = .next u → ∀ c r, u.pixel c r = s.pixel c r

/-! ## Timer and key -/

/-- R180, R183: LDVDT copies the timer to Vx, LDDT copies Vx to the timer, and nothing else changes. -/
def Obligations.TimerTransfersCopyOneByte : Prop :=
  ∀ (s : State) (x : Reg),
    (∃ t : State, exec (.ldvdt x) s = .next t ∧ t.reg x = s.dt ∧ RegFrame s t [x]) ∧
    (∃ t : State, exec (.lddt x) s = .next t ∧ t.dt = s.reg x ∧ SameRegs s t [] ∧ t.pc = s.pc ∧ t.ir = s.ir ∧
      SameMemory s t ∧ t.fb = s.fb ∧ t.run = s.run ∧ t.env = s.env)

/-- R181: LDK enters the wait for the register X; Vx is not written yet and nothing else changes. -/
def Obligations.LdkEntersTheWait : Prop :=
  ∀ (s : State) (x : Reg), ∃ t : State, exec (.ldk x) s = .next t ∧ t.run = .waitKey x ∧ SameRegs s t [] ∧ t.pc = s.pc ∧
    t.ir = s.ir ∧ t.dt = s.dt ∧ SameMemory s t ∧ t.fb = s.fb ∧ t.env = s.env

/-- R182: a key in WaitKey(r) writes its code, zero-extended, to Vr and the core runs on; in any other run state it does nothing,
which is the spec's own decision (its D15; notes/assumptions/17.md). -/
def Obligations.KeyEndsTheWait : Prop :=
  ∀ (s : State) (k : BitVec 4), s.nextEvent = some (.key k) → ∃ t : State, step s = .next t ∧
    (∀ r, s.run = .waitKey r → (t.reg r).toNat = k.toNat ∧ t.run = .running ∧ SameRegs s t [r] ∧ t.pc = s.pc ∧
      t.ir = s.ir ∧ t.dt = s.dt ∧ t.bytes = s.bytes ∧ t.fb = s.fb) ∧
    ((∀ r, s.run ≠ .waitKey r) → SameBlock s t)

/-- R214, R184: a `Tick` in Running or WaitKey lowers the timer by 1 and leaves 0 at 0; in Loading and Halted it does nothing, which is
the spec's own decision (its D11; notes/assumptions/17.md). That it is no second tick of a slice in Running is the model's premise
(notes/assumptions/9.md). -/
def Obligations.TickCountsDownToZero : Prop :=
  ∀ s : State, s.nextEvent = some .tick → (s.run = .running → s.env.ticked = false) → ∃ t : State, step s = .next t ∧
    ((s.run = .running ∨ ∃ r, s.run = .waitKey r) → t.dt.toNat = s.dt.toNat - 1) ∧
    ((s.run = .loading ∨ ∃ z, s.run = .halted z) → t.dt = s.dt) ∧
    t.x = s.x ∧ t.pc = s.pc ∧ t.ir = s.ir ∧ t.bytes = s.bytes ∧ t.fb = s.fb ∧ t.run = s.run

/-- R184, R214: any number of ticks may come during a wait; `n` of them lower the timer by `n`, to 0 at the least, and the wait goes
on. That ticks count during a wait is the spec's own decision (its D11; notes/assumptions/17.md). That several in a row are delivered,
and none refused as a slice's second (R247), is its D10, which allows any number in WaitKey, and the model's reading of it
(notes/assumptions/9.md). -/
def Obligations.TicksDuringAWaitAddUp : Prop :=
  ∀ (s : State) (r : Reg) (n : Nat) (rest : List Event), s.run = .waitKey r →
    s.env.pending = List.replicate n .tick ++ rest →
    ∃ t : State, Sys2Proof.core.run n s = .next t ∧ t.dt.toNat = s.dt.toNat - n ∧ t.run = .waitKey r ∧ t.x = s.x ∧
      t.pc = s.pc ∧ t.ir = s.ir ∧ t.bytes = s.bytes ∧ t.fb = s.fb ∧ t.env.pending = rest

/-! ## The sentinel as a row of the table, and completion -/

/-- R112: executing the sentinel row halts with reason Sentinel and changes nothing else. -/
def Obligations.SentinelRowHalts : Prop :=
  ∀ s : State, ∃ t : State, exec .haltSentinel s = .next t ∧ t.run = .halted .sentinel ∧ SameRegs s t [] ∧ t.pc = s.pc ∧
    t.ir = s.ir ∧ t.dt = s.dt ∧ SameMemory s t ∧ t.fb = s.fb ∧ t.env = s.env

/-- No instruction is left without a next state, in any state: every fault of the spec is itself a next state, by the model's choice
(notes/assumptions/5.md), and `exec` leaves the run state alone but for LDK, the sentinel and those faults. -/
def Obligations.EveryInstructionAnswersANextState : Prop :=
  ∀ (i : Instr) (s : State), ∃ t : State, exec i s = .next t ∧
    (t.run = s.run ∨ (∃ x, i = .ldk x ∧ t.run = .waitKey x) ∨ (i = .haltSentinel ∧ t.run = .halted .sentinel) ∨
      ∃ a, 4095 ≤ a ∧ t.run = .halted (.executionFault a))

/-! ## What the host reads and does -/

/-- R65, R205: `FbRead` returns the cell as the last event left it, and neither it nor `Status` changes the block. -/
def Obligations.ReadersChangeNothing : Prop :=
  ∀ (s : State) (ev : Event), s.nextEvent = some ev → (ev = .status ∨ ∃ x y, ev = .fbRead x y) →
    ∃ t : State, step s = .next t ∧ SameBlock s t ∧ t.status = s.status ∧ ∀ x y, t.fbRead x y = s.pixel x y

/-- R200, R205: `Status` shows the run state, a code for the halt, the word of a DecodeError and the address of either fault. The codes
are the spec's own decision (its D13; notes/assumptions/22.md). -/
def Obligations.StatusShowsTheHalt : Prop :=
  ∀ s : State, s.status.run = s.run ∧
    ((∀ z, s.run ≠ .halted z) → s.status.code = 0 ∧ s.status.word = none ∧ s.status.addr = none) ∧
    (s.run = .halted .sentinel → s.status.code = 1 ∧ s.status.word = none ∧ s.status.addr = none) ∧
    (∀ w a, s.run = .halted (.decodeError w a) → s.status.code = 2 ∧ s.status.word = some w ∧ s.status.addr = some a) ∧
    (∀ a, s.run = .halted (.executionFault a) → s.status.code = 3 ∧ s.status.word = none ∧ s.status.addr = some a)

/-- R221: `Quit` leaves the block as it is, and no event follows it: the next step stops with `hostQuit`, which is the model's choice
(notes/assumptions/8.md). -/
def Obligations.QuitEndsTheEvents : Prop :=
  ∀ s : State, s.nextEvent = some .quit → ∃ t : State, step s = .next t ∧ SameBlock s t ∧ step t = .fault .hostQuit

/-- R247 and the spec's U12: a second `Tick` of one slice in Running has no move; the model refuses it by name
(notes/assumptions/9.md), and it refuses nothing else. -/
def Obligations.OnlyASecondTickIsRefused : Prop :=
  ∀ (s : State) (q : Refusal), step s = .refused q ↔
    (q = .secondTickInSlice ∧ s.nextEvent = some .tick ∧ s.run = .running ∧ s.env.ticked = true)

/-- The spec's D10 as the model's default (notes/assumptions/7.md): with nothing pending under the nominal schedule, a running machine
takes a `Tick` and then a `Cycle`. -/
def Obligations.NominalScheduleTicksBeforeTheCycle : Prop :=
  ∀ s : State, s.env.pending = [] → s.env.pacing = .nominal → s.env.ticked = false → s.run = .running →
    s.nextEvent = some .tick ∧ ∃ t : State, step s = .next t ∧ t.nextEvent = some .cycle ∧ t.run = .running ∧
      t.pc = s.pc ∧ t.x = s.x ∧ t.dt.toNat = s.dt.toNat - 1

/-- R206, R63: while a program runs, no event but `Cycle` and `Reset` changes anything of the block but the timer, and that only a
`Tick` does. That events out of place do nothing is the spec's own decision (its D15; notes/assumptions/17.md). -/
def Obligations.OutsideNeverDivertsARunningProgram : Prop :=
  ∀ (s t : State) (ev : Event), s.nextEvent = some ev → s.run = .running → ev ≠ .cycle → ev ≠ .reset →
    step s = .next t → t.x = s.x ∧ t.pc = s.pc ∧ t.ir = s.ir ∧ t.bytes = s.bytes ∧ t.fb = s.fb ∧ t.run = .running ∧
      (t.dt ≠ s.dt → ev = .tick)

/-! ## The run state -/

/-- R211, R117: in Halted every event but `Reset` leaves the whole block unchanged; there is no way back. That the events do nothing is
the spec's own decision (its D15; notes/assumptions/17.md). -/
def Obligations.HaltedIsTerminal : Prop :=
  ∀ (s : State) (z : HaltReason) (ev : Event), s.nextEvent = some ev → s.run = .halted z → ev ≠ .reset →
    ∃ t : State, step s = .next t ∧ SameBlock s t

/-- R203, R248, R211: a finished program stays finished: with no `Reset` to come and the host still sending events, every run from
it is safe, however long, and the block is never again changed. That events do nothing then is the spec's own decision (its D15;
notes/assumptions/17.md); that the host goes on sending them, though its loop has ended (R119), is the model's choice
(notes/assumptions/30.md). -/
def Obligations.FinishedProgramsStayFinished : Prop :=
  ∀ s : State, s.finished = true → Event.reset ∉ s.env.pending → Event.quit ∉ s.env.pending → s.env.pacing ≠ .stopped →
    ∀ k, s.SafeRun k ∧ ∃ t : State, Sys2Proof.core.run k s = .next t ∧ SameBlock s t ∧ t.finished = true

/-- R118: `Cycle` outside Running, `Key` outside WaitKey, `Tick` in Loading and Halted, `Load` and `Start` outside Loading leave the
whole block unchanged. It is the spec's own decision (its D15; notes/assumptions/17.md). -/
def Obligations.EventsOutOfPlaceDoNothing : Prop :=
  ∀ (s : State) (ev : Event), s.nextEvent = some ev →
    ((ev = .cycle ∧ s.run ≠ .running) ∨ ((∃ k, ev = .key k) ∧ ∀ r, s.run ≠ .waitKey r) ∨
      (ev = .tick ∧ (s.run = .loading ∨ ∃ z, s.run = .halted z)) ∨
      (((∃ a v, ev = .load a v) ∨ ev = .start) ∧ s.run ≠ .loading)) →
    ∃ t : State, step s = .next t ∧ SameBlock s t

/-- R117: whatever the state, a step moves the run state only as the spec's table of transitions allows; that an event with no row
there does nothing is the spec's own decision (its D15; notes/assumptions/17.md). -/
def Obligations.RunStateFollowsTheTable : Prop :=
  ∀ (s t : State) (ev : Event), s.nextEvent = some ev → step s = .next t → Transition s.run ev t.run

/-! ## Promises over all instructions -/

/-- R114: an instruction leaves `pc` alone unless it is JP or JPOff, or a skip, which may add 2. -/
def Obligations.OnlyControlFlowWritesThePc : Prop :=
  ∀ (i : Instr) (s t : State), exec i s = .next t →
    t.pc = s.pc ∨ (∃ nnn, i = .jp nnn ∨ i = .jpOff nnn) ∨
      (((∃ x nn, i = .seImm x nn ∨ i = .sne x nn) ∨ ∃ x y, i = .seDir x y) ∧ t.pc.toNat = s.pc.toNat + 2)

/-- R22: VF changes only where an instruction names it as its destination or is one of the six that write it as a flag, and what those
write is 0 or 1. That VF is the flag, 0 or 1, after ADDDir, SUB, SHR, SUBN and SHL with X = 15 is the spec's own decision (its D5;
notes/assumptions/12.md), and so is that DRW with N = 0 leaves VF (its D7; notes/assumptions/14.md). -/
def Obligations.OnlyFlagWritersTouchVF : Prop :=
  ∀ (i : Instr) (s t : State), exec i s = .next t → t.reg 15 ≠ s.reg 15 →
    ((∃ nn, i = .ldImm 15 nn ∨ i = .addImm 15 nn) ∨
      (∃ y, i = .ldDir 15 y ∨ i = .or 15 y ∨ i = .and 15 y ∨ i = .xor 15 y) ∨ i = .ldvdt 15) ∨
    (((∃ x y, i = .addDir x y ∨ i = .sub x y ∨ i = .shr x y ∨ i = .subn x y ∨ i = .shl x y) ∨
      ∃ x y n, i = .drw x y n ∧ 0 < n) ∧ (t.reg 15 = 0#8 ∨ t.reg 15 = 1#8))

/-- R25, R26, R27, R28, R53: no instruction writes memory or the open parameters; I is written by LDI only, the timer by LDDT only, the
framebuffer by CLS and DRW only. That DRW with N = 0 draws nothing is the spec's own decision (its D7; notes/assumptions/14.md). -/
def Obligations.EachPieceOfStateHasItsWriters : Prop :=
  ∀ (i : Instr) (s t : State), exec i s = .next t →
    SameMemory s t ∧ t.env = s.env ∧ (t.ir ≠ s.ir → ∃ nnn, i = .ldi nnn) ∧ (t.dt ≠ s.dt → ∃ x, i = .lddt x) ∧
      (t.fb ≠ s.fb → i = .cls ∨ ∃ x y n, i = .drw x y n ∧ 0 < n)

/-- R27, R63: outside Loading no step but a `Reset` changes a cell of memory; that a `Load` then does nothing is the spec's own
decision (its D15; notes/assumptions/17.md). -/
def Obligations.MemoryIsFixedAfterStart : Prop :=
  ∀ s t : State, s.run ≠ .loading → s.nextEvent ≠ some .reset → step s = .next t →
    t.bytes = s.bytes ∧ t.run ≠ .loading ∧ ∀ a, s.isView a = false → t.readByte a = s.readByte a

/-! ## The invariant -/

/-- R34: the invariant holds after `Reset`. -/
def Obligations.ResetMeetsTheInvariant : Prop := State.reset.Inv

/-- R34, R24, R25: every step keeps the invariant: `pc <= 0x10FE` once a run has begun, `I <= 0x0FFF` where the loader cannot preset it,
and memory in canonical form below 4096. -/
def Obligations.StepKeepsTheInvariant : Prop :=
  ∀ s t : State, s.Inv → step s = .next t → t.Inv

/-! ## Decoding and encoding -/

/-- R82, R84: decoding the word of any well-formed instruction gives it back, every operand with it, and so do its bytes with anything
after them. -/
def Obligations.DecodeOfEncodeIsTheInstruction : Prop :=
  ∀ (i : Instr) (rest : List Byte), i.wellFormed = true →
    decode (encode i) = some i ∧ decodeBytes (encodeBytes i ++ rest) = .ok (i, rest)

/-- R84, R87: a word that decodes is the word of what it decodes to, so no two words stand for one instruction. The rules do not
say that of SHR and SHL, whose 16 values of Y select one operation (R86): it holds because the model's terms keep the unused Y, which
is the model's own choice (notes/assumptions/20.md). -/
def Obligations.EncodeOfDecodeIsTheWord : Prop :=
  ∀ (w : Word) (i : Instr), decode w = some i → i.wellFormed = true ∧ encode i = w

/-- R84, R85: the dispatch by nibbles and the table of masks agree on every word: what decodes lies in its own row, a word that a row
matches decodes to that row's instruction, and so no word matches two rows. -/
def Obligations.DispatchAgreesWithTheOpcodeMap : Prop :=
  ∀ w : Word,
    (∀ i, decodeOp w = some i → i.row ∈ opRows ∧ i.row.hits w = true) ∧
    (∀ r ∈ opRows, r.hits w = true → ∃ i, decodeOp w = some i ∧ i.row = r) ∧
    (decodeOp w = none ↔ ∀ r ∈ opRows, r.hits w = false)

/-- R88: for n1 = 5 the word is SEDir when n4 = 0, and illegal otherwise. -/
def Obligations.SEDirNeedsAZeroNibble : Prop :=
  ∀ w : Word, w.toNat / 4096 = 5 →
    (w.toNat % 16 = 0 → ∃ x y : Reg, decode w = some (.seDir x y) ∧ x.val = w.toNat / 256 % 16 ∧ y.val = w.toNat / 16 % 16) ∧
    (w.toNat % 16 ≠ 0 → decode w = none)

/-- R91's example words, one of each format, decode to the instruction the spec writes beside them; 0x0000 is the sentinel (R90) and a
few words other machines know are illegal (R89). -/
def Obligations.WordsOfTheSpecDecode : Prop :=
  decode 0x00E0#16 = some .cls ∧ decode 0x1204#16 = some (.jp 0x204#12) ∧ decode 0x427F#16 = some (.sne 2 0x7F#8) ∧
  decode 0x8015#16 = some (.sub 0 1) ∧ decode 0xD015#16 = some (.drw 0 1 5) ∧ decode 0xF107#16 = some (.ldvdt 1) ∧
  decode 0xF00A#16 = some (.ldk 0) ∧ decode 0x0000#16 = some .haltSentinel ∧ decodeOp 0x0000#16 = none ∧
  decode 0x00EE#16 = none ∧ decode 0x5011#16 = none ∧ decode 0xF018#16 = none

/-! ## The register view -/

/-- R33: under `aliased` the bytes 0..19 are pc, I and V0..VF, high byte first; under `separate` they are plain cells that no register
shows in. That `separate` is the hardware is the spec's own decision (its D1; notes/assumptions/1.md). -/
def Obligations.LowBytesAreTheRegistersWhenAliased : Prop :=
  ∀ s : State,
    (s.env.regAlias = .aliased →
      (s.readByte 0).toNat = s.pc.toNat / 256 ∧ (s.readByte 1).toNat = s.pc.toNat % 256 ∧
      (s.readByte 2).toNat = s.ir.toNat / 256 ∧ (s.readByte 3).toNat = s.ir.toNat % 256 ∧
      (∀ r : Reg, s.readByte (4 + r.val) = s.reg r) ∧ ∀ a, 20 ≤ a → s.readByte a = Memory.read s.bytes a) ∧
    (s.env.regAlias = .separate → ∀ a, s.readByte a = Memory.read s.bytes a)

/-! ## The order of events within a slice -/

/-- R208, R119: of the events of one slice `Tick` is taken first, then `FbRead`, then `Key` or `Quit`, then `Cycle`, in whatever order
they are pending: no event is taken while one of its slice that precedes it is pending, none is taken right after one it precedes
unless that one ended the slice, and under the nominal schedule the slice's `Tick` comes before the pending events where the host lists
no `Tick` and no `Cycle`. The order is the document's (the spec's D19); which events are one slice is the model's choice
(notes/assumptions/29.md), and so is that the schedule adds the `Tick` (notes/assumptions/7.md). -/
def Obligations.EventsOfASliceComeInOrder : Prop :=
  ∀ (s : State) (ev : Event), s.nextEvent = some ev →
    (∀ a ∈ sliceOf s.run s.env.pending, precedes a ev = false) ∧
    (∀ (t : State) (ev' : Event), endsSlice s.run ev = false → step s = .next t → t.nextEvent = some ev' →
      precedes ev' ev = false) ∧
    (s.env.pacing = .nominal → s.env.ticked = false → Event.tick ∉ s.env.pending → Event.cycle ∉ s.env.pending →
      ev ≠ .quit ∧ (∀ x y, ev ≠ .fbRead x y) ∧ ∀ k, ev ≠ .key k)

/-- R208: in whatever order a slice's `Tick`, `FbRead` and `Key` are pending before its `Cycle`, three steps deliver them and the `Cycle`
is next, with the timer already lowered for it and the framebuffer as the slice before left it; and with a `Quit` in place of the
read and the key, the timer is lowered and the slice's `Cycle` does not run. The machine is Running with no `Tick` of the slice yet
(the model's notes/assumptions/9.md); the key is dropped by the spec's D15 (notes/assumptions/17.md); the stop after `Quit` is the
model's (notes/assumptions/8.md). -/
def Obligations.AShuffledSliceRunsInOrder : Prop :=
  ∀ (s : State) (x : Col) (y : Row) (k : BitVec 4) (l rest : List Event), s.run = .running → s.env.ticked = false →
    s.env.pending = l ++ .cycle :: rest →
    (l.Perm [.tick, .fbRead x y, .key k] → ∃ t : State, Sys2Proof.core.run 3 s = .next t ∧ t.nextEvent = some .cycle ∧
      t.env.pending = .cycle :: rest ∧ t.dt.toNat = s.dt.toNat - 1 ∧ t.x = s.x ∧ t.pc = s.pc ∧ t.ir = s.ir ∧
      t.bytes = s.bytes ∧ t.fb = s.fb ∧ t.run = .running) ∧
    (l.Perm [.tick, .quit] → ∃ t : State, Sys2Proof.core.run 2 s = .next t ∧ step t = .fault .hostQuit ∧
      t.dt.toNat = s.dt.toNat - 1 ∧ t.x = s.x ∧ t.pc = s.pc ∧ t.ir = s.ir ∧ t.bytes = s.bytes ∧ t.fb = s.fb ∧
      t.run = .running)
end

