-- ==== Sys2Proof/Laws/Decode.lean ====
section
/-! SUPPORT. What each field reads from each format, and that the decoder answers well-formed instructions only (30_encoding.md R82,
R83, R87). -/

namespace Sys2Proof

@[simp] theorem regOfBits_bitsOfReg (r : Reg) : regOfBits (bitsOfReg r) = r := by
  have := r.isLt
  apply Fin.ext
  show (BitVec.ofNat 4 r.val).toNat = r.val
  simp only [BitVec.toNat_ofNat]; omega

@[simp] theorem bitsOfReg_regOfBits (b : BitVec 4) : bitsOfReg (regOfBits b) = b := by
  apply BitVec.eq_of_toNat_eq
  show (BitVec.ofNat 4 b.toNat).toNat = b.toNat
  simp

/-- The low part of an append. -/
theorem extractLsb'_append_low {n m : Nat} (a : BitVec n) (b : BitVec m) : (a ++ b).extractLsb' 0 m = b := by
  ext i hi
  rw [BitVec.getElem_extractLsb', BitVec.getLsbD_append]
  simp [hi]

/-- The high part of an append. -/
theorem extractLsb'_append_high {n m : Nat} (a : BitVec n) (b : BitVec m) : (a ++ b).extractLsb' m n = a := by
  ext i hi
  rw [BitVec.getElem_extractLsb', BitVec.getLsbD_append]
  simp [BitVec.getLsbD_eq_getElem hi]

/-- A field that lies in the low part of an append. -/
theorem extractLsb'_append_within {n m : Nat} (a : BitVec n) (b : BitVec m) {k l : Nat} (h : k + l ≤ m) :
    (a ++ b).extractLsb' k l = b.extractLsb' k l := by
  ext i hi
  rw [BitVec.getElem_extractLsb', BitVec.getElem_extractLsb', BitVec.getLsbD_append]
  have : k + i < m := by omega
  simp [this]

/-! ## Format NNN -/

@[simp] theorem nibble1_formatNNN (n1 : BitVec 4) (a : Addr12) : nibble1 (formatNNN n1 a) = n1 :=
  extractLsb'_append_high n1 a

@[simp] theorem fieldNNN_formatNNN (n1 : BitVec 4) (a : Addr12) : fieldNNN (formatNNN n1 a) = a :=
  extractLsb'_append_low n1 a

/-! ## Format XNN -/

@[simp] theorem nibble1_formatXNN (n1 : BitVec 4) (x : Reg) (nn : Byte) : nibble1 (formatXNN n1 x nn) = n1 :=
  extractLsb'_append_high n1 _

@[simp] theorem fieldX_formatXNN (n1 : BitVec 4) (x : Reg) (nn : Byte) : fieldX (formatXNN n1 x nn) = x := by
  have : (formatXNN n1 x nn).extractLsb' 8 4 = bitsOfReg x :=
    (extractLsb'_append_within n1 (bitsOfReg x ++ nn) (by decide)).trans (extractLsb'_append_high (bitsOfReg x) nn)
  rw [fieldX, this, regOfBits_bitsOfReg]

@[simp] theorem fieldNN_formatXNN (n1 : BitVec 4) (x : Reg) (nn : Byte) : fieldNN (formatXNN n1 x nn) = nn :=
  (extractLsb'_append_within n1 (bitsOfReg x ++ nn) (by decide)).trans (extractLsb'_append_low (bitsOfReg x) nn)

/-! ## Formats XYF and XYN -/

@[simp] theorem nibble1_formatXYN (n1 : BitVec 4) (x y : Reg) (n4 : BitVec 4) : nibble1 (formatXYN n1 x y n4) = n1 :=
  extractLsb'_append_high n1 _

@[simp] theorem fieldX_formatXYN (n1 : BitVec 4) (x y : Reg) (n4 : BitVec 4) : fieldX (formatXYN n1 x y n4) = x := by
  have : (formatXYN n1 x y n4).extractLsb' 8 4 = bitsOfReg x :=
    (extractLsb'_append_within n1 (bitsOfReg x ++ (bitsOfReg y ++ n4)) (by decide)).trans
      (extractLsb'_append_high (bitsOfReg x) (bitsOfReg y ++ n4))
  rw [fieldX, this, regOfBits_bitsOfReg]

@[simp] theorem fieldY_formatXYN (n1 : BitVec 4) (x y : Reg) (n4 : BitVec 4) : fieldY (formatXYN n1 x y n4) = y := by
  have : (formatXYN n1 x y n4).extractLsb' 4 4 = bitsOfReg y :=
    ((extractLsb'_append_within n1 (bitsOfReg x ++ (bitsOfReg y ++ n4)) (by decide)).trans
      (extractLsb'_append_within (bitsOfReg x) (bitsOfReg y ++ n4) (by decide))).trans
      (extractLsb'_append_high (bitsOfReg y) n4)
  rw [fieldY, this, regOfBits_bitsOfReg]

@[simp] theorem nibble4_formatXYN (n1 : BitVec 4) (x y : Reg) (n4 : BitVec 4) : nibble4 (formatXYN n1 x y n4) = n4 :=
  ((extractLsb'_append_within n1 (bitsOfReg x ++ (bitsOfReg y ++ n4)) (by decide)).trans
    (extractLsb'_append_within (bitsOfReg x) (bitsOfReg y ++ n4) (by decide))).trans
    (extractLsb'_append_low (bitsOfReg y) n4)

/-! ## Words as formats -/

theorem append_extract {n m : Nat} (w : BitVec (n + m)) : w.extractLsb' m n ++ w.extractLsb' 0 m = w := by
  ext i hi
  simp only [BitVec.getElem_append, BitVec.getElem_extractLsb']
  by_cases h : i < m
  · simp [h, ← BitVec.getLsbD_eq_getElem]
  · have : m + (i - m) = i := by omega
    simp [h, this, ← BitVec.getLsbD_eq_getElem]

/-- Every word is its own NNN format (R83). -/
theorem formatNNN_fields (w : Word) : formatNNN (nibble1 w) (fieldNNN w) = w := append_extract (n := 4) (m := 12) w

/-- Every word is its own XNN format (R83). -/
theorem formatXNN_fields (w : Word) : formatXNN (nibble1 w) (fieldX w) (fieldNN w) = w := by
  have h : bitsOfReg (fieldX w) ++ fieldNN w = fieldNNN w := by
    have := append_extract (n := 4) (m := 8) (fieldNNN w)
    unfold fieldX fieldNN
    rw [bitsOfReg_regOfBits]
    rw [← this]
    congr 1
    · unfold fieldNNN
      rw [BitVec.extractLsb'_extractLsb'_of_le (by decide)]
    · unfold fieldNNN
      rw [BitVec.extractLsb'_extractLsb'_of_le (by decide)]
  show nibble1 w ++ (bitsOfReg (fieldX w) ++ fieldNN w) = w
  rw [h]; exact formatNNN_fields w

/-- Every word is its own XYN format (R83). -/
theorem formatXYN_fields (w : Word) : formatXYN (nibble1 w) (fieldX w) (fieldY w) (nibble4 w) = w := by
  have h : bitsOfReg (fieldY w) ++ nibble4 w = fieldNN w := by
    have := append_extract (n := 4) (m := 4) (fieldNN w)
    unfold fieldY nibble4
    rw [bitsOfReg_regOfBits]
    rw [← this]
    congr 1
    · unfold fieldNN
      rw [BitVec.extractLsb'_extractLsb'_of_le (by decide)]
    · unfold fieldNN
      rw [BitVec.extractLsb'_extractLsb'_of_le (by decide)]
  show nibble1 w ++ (bitsOfReg (fieldX w) ++ (bitsOfReg (fieldY w) ++ nibble4 w)) = w
  rw [h]; exact formatXNN_fields w

/-! ## Well-formedness -/

/-- The decoder answers well-formed instructions only: N is a nibble (R82). -/
theorem decode_wellFormed {w : Word} {i : Instr} (h : decode w = some i) : i.wellFormed = true := by
  unfold decode decodeOp decodeAlu decodeSystem at h
  repeat' split at h
  all_goals first
    | (injection h with h; subst h; first | rfl | exact decide_eq_true (nibble4 w).isLt)
    | cases h

end Sys2Proof
end

