-- ==== Sys2Proof/Laws/State.lean ====
section
/-! SUPPORT. What each update of the state leaves in each field: one lemma per field, true by unfolding, for simp. -/

namespace Sys2Proof.Machine

variable (s : State) (r : Reg) (v : Byte) (c : Col) (y : Row) (b : Bool) (z : HaltReason) (ev : Event) (f : Bool)

@[simp] theorem State.setReg_pc : (s.setReg r v).pc = s.pc := rfl
@[simp] theorem State.setReg_ir : (s.setReg r v).ir = s.ir := rfl
@[simp] theorem State.setReg_dt : (s.setReg r v).dt = s.dt := rfl
@[simp] theorem State.setReg_bytes : (s.setReg r v).bytes = s.bytes := rfl
@[simp] theorem State.setReg_fb : (s.setReg r v).fb = s.fb := rfl
@[simp] theorem State.setReg_run : (s.setReg r v).run = s.run := rfl
@[simp] theorem State.setReg_env : (s.setReg r v).env = s.env := rfl

@[simp] theorem State.setResult_pc : (s.setResult r v f).pc = s.pc := rfl
@[simp] theorem State.setResult_ir : (s.setResult r v f).ir = s.ir := rfl
@[simp] theorem State.setResult_dt : (s.setResult r v f).dt = s.dt := rfl
@[simp] theorem State.setResult_bytes : (s.setResult r v f).bytes = s.bytes := rfl
@[simp] theorem State.setResult_fb : (s.setResult r v f).fb = s.fb := rfl
@[simp] theorem State.setResult_run : (s.setResult r v f).run = s.run := rfl
@[simp] theorem State.setResult_env : (s.setResult r v f).env = s.env := rfl

@[simp] theorem State.setPixel_x : (s.setPixel c y b).x = s.x := rfl
@[simp] theorem State.setPixel_pc : (s.setPixel c y b).pc = s.pc := rfl
@[simp] theorem State.setPixel_ir : (s.setPixel c y b).ir = s.ir := rfl
@[simp] theorem State.setPixel_dt : (s.setPixel c y b).dt = s.dt := rfl
@[simp] theorem State.setPixel_bytes : (s.setPixel c y b).bytes = s.bytes := rfl
@[simp] theorem State.setPixel_run : (s.setPixel c y b).run = s.run := rfl
@[simp] theorem State.setPixel_env : (s.setPixel c y b).env = s.env := rfl

@[simp] theorem State.clearPixels_x : s.clearPixels.x = s.x := rfl
@[simp] theorem State.clearPixels_pc : s.clearPixels.pc = s.pc := rfl
@[simp] theorem State.clearPixels_ir : s.clearPixels.ir = s.ir := rfl
@[simp] theorem State.clearPixels_dt : s.clearPixels.dt = s.dt := rfl
@[simp] theorem State.clearPixels_bytes : s.clearPixels.bytes = s.bytes := rfl
@[simp] theorem State.clearPixels_run : s.clearPixels.run = s.run := rfl
@[simp] theorem State.clearPixels_env : s.clearPixels.env = s.env := rfl

@[simp] theorem State.raise_x : (s.raise z).x = s.x := rfl
@[simp] theorem State.raise_pc : (s.raise z).pc = s.pc := rfl
@[simp] theorem State.raise_ir : (s.raise z).ir = s.ir := rfl
@[simp] theorem State.raise_dt : (s.raise z).dt = s.dt := rfl
@[simp] theorem State.raise_bytes : (s.raise z).bytes = s.bytes := rfl
@[simp] theorem State.raise_fb : (s.raise z).fb = s.fb := rfl
@[simp] theorem State.raise_run : (s.raise z).run = .halted z := rfl
@[simp] theorem State.raise_env : (s.raise z).env = s.env := rfl

@[simp] theorem State.advance_x : s.advance.x = s.x := rfl
@[simp] theorem State.advance_pc : s.advance.pc = s.pc + 2#16 := rfl
@[simp] theorem State.advance_ir : s.advance.ir = s.ir := rfl
@[simp] theorem State.advance_dt : s.advance.dt = s.dt := rfl
@[simp] theorem State.advance_bytes : s.advance.bytes = s.bytes := rfl
@[simp] theorem State.advance_fb : s.advance.fb = s.fb := rfl
@[simp] theorem State.advance_run : s.advance.run = s.run := rfl
@[simp] theorem State.advance_env : s.advance.env = s.env := rfl

@[simp] theorem State.take_x : (s.take ev).x = s.x := rfl
@[simp] theorem State.take_pc : (s.take ev).pc = s.pc := rfl
@[simp] theorem State.take_ir : (s.take ev).ir = s.ir := rfl
@[simp] theorem State.take_dt : (s.take ev).dt = s.dt := rfl
@[simp] theorem State.take_bytes : (s.take ev).bytes = s.bytes := rfl
@[simp] theorem State.take_fb : (s.take ev).fb = s.fb := rfl
@[simp] theorem State.take_run : (s.take ev).run = s.run := rfl
@[simp] theorem State.take_env : (s.take ev).env = scheduleAfter s.env s.run ev := rfl

@[simp] theorem scheduleAfter_regAlias (e : Env) (q : RunState) : (scheduleAfter e q ev).regAlias = e.regAlias := by
  cases ev <;> rfl

/-! The state after `Reset`, field by field (R32, R240). -/

@[simp] theorem State.reset_x : State.reset.x = Vector.replicate 16 0#8 := rfl
@[simp] theorem State.reset_pc : State.reset.pc = 0#16 := rfl
@[simp] theorem State.reset_ir : State.reset.ir = 0#16 := rfl
@[simp] theorem State.reset_dt : State.reset.dt = 0#8 := rfl
@[simp] theorem State.reset_bytes : State.reset.bytes = [] := rfl
@[simp] theorem State.reset_fb : State.reset.fb = Vector.replicate 32 0#64 := rfl
@[simp] theorem State.reset_run : State.reset.run = .loading := rfl

/-! What a read depends on. -/

theorem State.reg_congr {s t : State} (h : t.x = s.x) (r : Reg) : t.reg r = s.reg r := by
  unfold State.reg; simp only [h]

theorem State.pixel_congr {s t : State} (h : t.fb = s.fb) (c : Col) (y : Row) : t.pixel c y = s.pixel c y := by
  unfold State.pixel; simp only [h]

theorem State.isView_congr {s t : State} (h : t.env.regAlias = s.env.regAlias) (a : Nat) : t.isView a = s.isView a := by
  unfold State.isView; rw [h]

theorem State.viewByte_congr {s t : State} (hx : t.x = s.x) (hp : t.pc = s.pc) (hi : t.ir = s.ir) (a : Nat) :
    t.viewByte a = s.viewByte a := by
  unfold State.viewByte
  split <;> simp only [hp, hi, State.reg_congr hx]

/-- A read sees the alias parameter, the cells, and under a view the registers. -/
theorem State.readByte_congr {s t : State} (hx : t.x = s.x) (hp : t.pc = s.pc) (hi : t.ir = s.ir)
    (hb : t.bytes = s.bytes) (he : t.env.regAlias = s.env.regAlias) (a : Nat) : t.readByte a = s.readByte a := by
  unfold State.readByte
  rw [State.isView_congr he, State.viewByte_congr hx hp hi, hb]

/-- A read that is no view of a register sees the cells alone. -/
theorem State.readByte_of_not_view {s : State} {a : Nat} (h : s.isView a = false) : s.readByte a = Memory.read s.bytes a := by
  unfold State.readByte; simp [h]

end Sys2Proof.Machine
end

