-- ==== Sys2Proof/Laws/Memory.lean ====
section
/-! SUPPORT. The laws of memory cells: read after write, and that a write keeps the canonical form. -/

namespace Sys2Proof.Machine

/-! ## Memory.wfFrom -/

theorem Memory.wfFrom_cons {lo k : Nat} {v : Byte} {m : Memory} :
    Memory.wfFrom lo ((k, v) :: m) = true ↔
      lo ≤ k ∧ k < Config.memSize ∧ v ≠ 0#8 ∧ Memory.wfFrom (k + 1) m = true := by
  simp [Memory.wfFrom, and_assoc]

theorem Memory.wfFrom_mono {lo lo' : Nat} {m : Memory} (h : Memory.wfFrom lo m = true) (hl : lo' ≤ lo) :
    Memory.wfFrom lo' m = true := by
  cases m with
  | nil => rfl
  | cons c m =>
    obtain ⟨k, v⟩ := c
    rw [Memory.wfFrom_cons] at h ⊢
    exact ⟨Nat.le_trans hl h.1, h.2⟩

/-- Below its first possible address a memory lists nothing. -/
theorem Memory.read_of_lt {lo a : Nat} {m : Memory} (h : Memory.wfFrom lo m = true) (ha : a < lo) : Memory.read m a = 0#8 := by
  induction m generalizing lo with
  | nil => rfl
  | cons c m ih =>
    obtain ⟨k, v⟩ := c
    rw [Memory.wfFrom_cons] at h
    have hk : k ≠ a := by omega
    simp only [Memory.read, hk, if_false]
    exact ih h.2.2.2 (by omega)

/-! ## Writes -/

theorem Memory.wfFrom_write {lo : Nat} {m : Memory} (h : Memory.wfFrom lo m = true) {a : Nat} (hlo : lo ≤ a)
    (ha : a < Config.memSize) (b : Byte) : Memory.wfFrom lo (Memory.write m a b) = true := by
  induction m generalizing lo with
  | nil => unfold Memory.write; split <;> simp_all [Memory.wfFrom]
  | cons c m ih =>
    obtain ⟨k, v⟩ := c
    have hc := Memory.wfFrom_cons.mp h
    unfold Memory.write
    by_cases h1 : k < a
    · simp only [h1, if_true]
      exact Memory.wfFrom_cons.mpr ⟨hc.1, hc.2.1, hc.2.2.1, ih hc.2.2.2 h1⟩
    · by_cases h2 : k = a
      · simp only [h2, if_true, if_false, lt_irrefl]
        split
        · exact Memory.wfFrom_mono hc.2.2.2 (by omega)
        · exact Memory.wfFrom_cons.mpr ⟨hlo, ha, by assumption, h2 ▸ hc.2.2.2⟩
      · simp only [h1, h2, if_false]
        split
        · exact h
        · exact Memory.wfFrom_cons.mpr ⟨hlo, ha, by assumption,
            Memory.wfFrom_cons.mpr ⟨by omega, hc.2⟩⟩

/-- A write below 4096 keeps the canonical form. -/
theorem Memory.wf_write {m : Memory} (h : Memory.wf m = true) {a : Nat} (ha : a < Config.memSize) (b : Byte) :
    Memory.wf (Memory.write m a b) = true :=
  Memory.wfFrom_write h (Nat.zero_le a) ha b

theorem Memory.read_write_from {lo : Nat} {m : Memory} (h : Memory.wfFrom lo m = true) (a : Nat) (b : Byte) (a' : Nat) :
    Memory.read (Memory.write m a b) a' = if a' = a then b else Memory.read m a' := by
  induction m generalizing lo with
  | nil =>
    by_cases hk : a' = a
    · subst hk; unfold Memory.write; split <;> simp_all [Memory.read]
    · have : ¬ a = a' := fun e => hk e.symm
      unfold Memory.write; rw [if_neg hk]; split <;> simp [Memory.read, this]
  | cons c m ih =>
    obtain ⟨k, v⟩ := c
    have hc := Memory.wfFrom_cons.mp h
    unfold Memory.write
    by_cases h1 : k < a
    · simp only [h1, if_true, Memory.read]
      by_cases hk : k = a'
      · have : a' ≠ a := by omega
        simp [hk, this]
      · simp only [hk, if_false]; exact ih hc.2.2.2
    · by_cases h2 : k = a
      · simp only [h2, if_true, if_false, lt_irrefl]
        split
        · next hb =>
          by_cases hk : a' = a
          · simp only [hk, if_true, hb]
            exact Memory.read_of_lt hc.2.2.2 (by omega)
          · have : ¬ a = a' := fun e => hk e.symm
            simp [Memory.read, hk, this]
        · simp only [Memory.read]
          by_cases hk : a' = a
          · simp [hk]
          · have : ¬ a = a' := fun e => hk e.symm
            simp [hk, this]
      · simp only [h1, h2, if_false]
        split
        · next hb =>
          by_cases hk : a' = a
          · simp only [hk, if_true, hb]
            have : ¬ k = a := h2
            simp only [Memory.read, this, if_false]
            exact Memory.read_of_lt hc.2.2.2 (by omega)
          · simp [hk]
        · simp only [Memory.read]
          by_cases hk : a' = a
          · simp [hk]
          · have : ¬ a = a' := fun e => hk e.symm
            simp [hk, this]

/-- A read after a write gives the value written there, and the old value everywhere else. -/
theorem Memory.read_write {m : Memory} (h : Memory.wf m = true) (a : Nat) (b : Byte) (a' : Nat) :
    Memory.read (Memory.write m a b) a' = if a' = a then b else Memory.read m a' :=
  Memory.read_write_from h a b a'

/-- No memory lists a cell at 4096 or above. -/
theorem Memory.read_above {lo : Nat} {m : Memory} (h : Memory.wfFrom lo m = true) {a : Nat} (ha : Config.memSize ≤ a) :
    Memory.read m a = 0#8 := by
  induction m generalizing lo with
  | nil => rfl
  | cons c m ih =>
    obtain ⟨k, v⟩ := c
    rw [Memory.wfFrom_cons] at h
    have hk : k ≠ a := by omega
    simp only [Memory.read, hk, if_false]
    exact ih h.2.2.2

/-- Equal memories are equal data: two canonical lists that read alike are the same list. -/
theorem Memory.ext_read {lo : Nat} {m m' : Memory} (h : Memory.wfFrom lo m = true) (h' : Memory.wfFrom lo m' = true)
    (hr : ∀ a, Memory.read m a = Memory.read m' a) : m = m' := by
  induction m generalizing lo m' with
  | nil =>
    cases m' with
    | nil => rfl
    | cons c m' =>
      obtain ⟨k, v⟩ := c
      have hc := Memory.wfFrom_cons.mp h'
      have := hr k
      simp [Memory.read] at this
      exact absurd this.symm hc.2.2.1
  | cons c m ih =>
    obtain ⟨k, v⟩ := c
    have hc := Memory.wfFrom_cons.mp h
    cases m' with
    | nil =>
      have := hr k
      simp [Memory.read] at this
      exact absurd this hc.2.2.1
    | cons c' m' =>
      obtain ⟨k', v'⟩ := c'
      have hc' := Memory.wfFrom_cons.mp h'
      have hkk : k = k' := by
        rcases Nat.lt_trichotomy k k' with hlt | heq | hgt
        · have := hr k
          have h1 : ¬ k' = k := by omega
          simp only [Memory.read, h1, if_true, if_false] at this
          rw [Memory.read_of_lt hc'.2.2.2 (by omega)] at this
          exact absurd this hc.2.2.1
        · exact heq
        · have := hr k'
          have h1 : ¬ k = k' := by omega
          simp only [Memory.read, h1, if_true, if_false] at this
          rw [Memory.read_of_lt hc.2.2.2 (by omega)] at this
          exact absurd this.symm hc'.2.2.1
      subst hkk
      have hv : v = v' := by simpa [Memory.read] using hr k
      subst hv
      have : m = m' := ih hc.2.2.2 hc'.2.2.2 fun a => by
        by_cases ha : k = a
        · subst ha
          rw [Memory.read_of_lt hc.2.2.2 (by omega), Memory.read_of_lt hc'.2.2.2 (by omega)]
        · simpa [Memory.read, ha] using hr a
      rw [this]

end Sys2Proof.Machine
end

