-- ==== Sys2Proof/Laws/Ops.lean ====
section
/-! SUPPORT. One lemma per shared operation: what registers, pixels and byte accesses read after each write, and everything a fetch
and a skip can do. -/

namespace Sys2Proof.Machine

/-! ## Registers -/

/-- A register read after a register write (R10, R21). -/
@[simp] theorem State.reg_setReg (s : State) (r q : Reg) (v : Byte) :
    (s.setReg r v).reg q = if q = r then v else s.reg q := by
  unfold State.reg State.setReg
  simp only [Vector.getElem_set]
  by_cases h : q = r
  · simp [h]
  · have : ¬ r.val = q.val := fun e => h (Fin.ext e.symm)
    simp [h, this]

@[simp] theorem State.reg_setPixel (s : State) (c : Col) (y : Row) (b : Bool) (r : Reg) :
    (s.setPixel c y b).reg r = s.reg r := rfl

@[simp] theorem State.reg_clearPixels (s : State) (r : Reg) : s.clearPixels.reg r = s.reg r := rfl

@[simp] theorem State.reg_raise (s : State) (z : HaltReason) (r : Reg) : (s.raise z).reg r = s.reg r := rfl

@[simp] theorem State.reg_advance (s : State) (r : Reg) : s.advance.reg r = s.reg r := rfl

@[simp] theorem State.reg_take (s : State) (ev : Event) (r : Reg) : (s.take ev).reg r = s.reg r := rfl

/-- A result and its flag: VF holds the flag, whatever Vx is (R152). -/
theorem State.reg_setResult (s : State) (x q : Reg) (v : Byte) (f : Bool) :
    (s.setResult x v f).reg q = if q = VF then flagByte f else if q = x then v else s.reg q := by
  unfold State.setResult; simp

/-- Every register is 0 after `Reset` (R32). -/
@[simp] theorem State.reg_reset (r : Reg) : State.reset.reg r = 0#8 := by
  unfold State.reg State.reset; simp

/-! ## The framebuffer -/

theorem getLsbD_setCell (row : BitVec 64) (x c : Col) (b : Bool) :
    (setCell row x b).getLsbD c.val = if c = x then b else row.getLsbD c.val := by
  have hx := x.isLt
  have hc := c.isLt
  have hxc : x.val = c.val ↔ c = x := by rw [Fin.ext_iff]; exact eq_comm
  unfold setCell
  cases b <;>
    simp only [if_true, Bool.false_eq_true, if_false, BitVec.getLsbD_or, BitVec.getLsbD_and, BitVec.getLsbD_not,
      BitVec.getLsbD_twoPow, hx, hc, hxc, decide_true, Bool.true_and] <;>
    by_cases h : c = x <;> simp [h]

/-- A cell read after a cell write (R57). -/
@[simp] theorem State.pixel_setPixel (s : State) (x c : Col) (y r : Row) (b : Bool) :
    (s.setPixel x y b).pixel c r = if c = x ∧ r = y then b else s.pixel c r := by
  unfold State.pixel State.setPixel
  simp only [Vector.getElem_set]
  by_cases h : r = y
  · subst h; simp only [if_true, and_true]; exact getLsbD_setCell _ _ _ _
  · have : ¬ y.val = r.val := fun e => h (Fin.ext e.symm)
    simp [h, this]

@[simp] theorem State.pixel_setReg (s : State) (q : Reg) (v : Byte) (c : Col) (r : Row) :
    (s.setReg q v).pixel c r = s.pixel c r := rfl

@[simp] theorem State.pixel_clearPixels (s : State) (c : Col) (r : Row) : s.clearPixels.pixel c r = false := by
  unfold State.pixel State.clearPixels; simp

@[simp] theorem State.pixel_reset (c : Col) (r : Row) : State.reset.pixel c r = false := by
  unfold State.pixel State.reset; simp

/-! ## Bytes of memory -/

theorem State.isView_iff (s : State) (a : Nat) :
    s.isView a = true ↔ s.env.regAlias = .aliased ∧ a < 20 := by
  unfold State.isView; simp

theorem highByte_wordOfBytes (hi lo : Byte) : highByte (wordOfBytes hi lo) = hi := by
  unfold highByte wordOfBytes
  ext i hi'
  rw [BitVec.getElem_extractLsb', BitVec.getLsbD_append]
  simp [BitVec.getLsbD_eq_getElem hi']

theorem lowByte_wordOfBytes (hi lo : Byte) : lowByte (wordOfBytes hi lo) = lo := by
  unfold lowByte wordOfBytes
  ext i hi'
  rw [BitVec.getElem_extractLsb', BitVec.getLsbD_append]
  simp [hi']

theorem wordOfBytes_highByte_lowByte (w : Word) : wordOfBytes (highByte w) (lowByte w) = w := by
  unfold highByte lowByte wordOfBytes
  ext i hi'
  simp only [BitVec.getElem_append, BitVec.getElem_extractLsb']
  by_cases h : i < 8
  · simp [h, ← BitVec.getLsbD_eq_getElem]
  · have : 8 + (i - 8) = i := by omega
    simp [h, this, ← BitVec.getLsbD_eq_getElem]

/-- A view byte of a register reads back what was written, and no other view byte changes (R33). -/
theorem State.viewByte_setViewByte (s : State) {a b : Nat} (ha : a < 20) (hb : b < 20) (v : Byte) :
    (s.setViewByte a v).viewByte b = if b = a then v else s.viewByte b := by
  have hne : ∀ i j : Nat, i < 16 → j < 16 → (Fin.ofNat 16 i = Fin.ofNat 16 j ↔ i = j) := by
    intro i j hi hj
    rw [Fin.ext_iff]
    show i % 16 = j % 16 ↔ i = j
    omega
  match a, ha, b, hb with
  | 0, _, 0, _ => simp [State.setViewByte, State.viewByte, highByte_wordOfBytes]
  | 0, _, 1, _ => simp [State.setViewByte, State.viewByte, lowByte_wordOfBytes]
  | 0, _, 2, _ => simp [State.setViewByte, State.viewByte]
  | 0, _, 3, _ => simp [State.setViewByte, State.viewByte]
  | 0, _, _ + 4, _ => simp [State.setViewByte, State.viewByte, State.reg]
  | 1, _, 0, _ => simp [State.setViewByte, State.viewByte, highByte_wordOfBytes]
  | 1, _, 1, _ => simp [State.setViewByte, State.viewByte, lowByte_wordOfBytes]
  | 1, _, 2, _ => simp [State.setViewByte, State.viewByte]
  | 1, _, 3, _ => simp [State.setViewByte, State.viewByte]
  | 1, _, _ + 4, _ => simp [State.setViewByte, State.viewByte, State.reg]
  | 2, _, 0, _ => simp [State.setViewByte, State.viewByte]
  | 2, _, 1, _ => simp [State.setViewByte, State.viewByte]
  | 2, _, 2, _ => simp [State.setViewByte, State.viewByte, highByte_wordOfBytes]
  | 2, _, 3, _ => simp [State.setViewByte, State.viewByte, lowByte_wordOfBytes]
  | 2, _, _ + 4, _ => simp [State.setViewByte, State.viewByte, State.reg]
  | 3, _, 0, _ => simp [State.setViewByte, State.viewByte]
  | 3, _, 1, _ => simp [State.setViewByte, State.viewByte]
  | 3, _, 2, _ => simp [State.setViewByte, State.viewByte, highByte_wordOfBytes]
  | 3, _, 3, _ => simp [State.setViewByte, State.viewByte, lowByte_wordOfBytes]
  | 3, _, _ + 4, _ => simp [State.setViewByte, State.viewByte, State.reg]
  | _ + 4, _, 0, _ => simp [State.setViewByte, State.viewByte]
  | _ + 4, _, 1, _ => simp [State.setViewByte, State.viewByte]
  | _ + 4, _, 2, _ => simp [State.setViewByte, State.viewByte]
  | _ + 4, _, 3, _ => simp [State.setViewByte, State.viewByte]
  | i + 4, hi, j + 4, hj =>
    simp only [State.setViewByte, State.viewByte, State.reg_setReg]
    have := hne j i (by omega) (by omega)
    by_cases h : j = i
    · simp [h]
    · rw [if_neg (fun e => h (this.mp e)), if_neg (by omega)]

/-- Writing a view byte leaves everything but pc, I and the registers. -/
theorem State.setViewByte_rest (s : State) (a : Nat) (v : Byte) :
    (s.setViewByte a v).dt = s.dt ∧ (s.setViewByte a v).bytes = s.bytes ∧ (s.setViewByte a v).fb = s.fb ∧
      (s.setViewByte a v).run = s.run ∧ (s.setViewByte a v).env = s.env := by
  unfold State.setViewByte
  split <;> exact ⟨rfl, rfl, rfl, rfl, rfl⟩

/-- What a byte write leaves alone, whatever its address. -/
theorem State.writeByte_rest (s : State) (a : Nat) (v : Byte) :
    (s.writeByte a v).dt = s.dt ∧ (s.writeByte a v).fb = s.fb ∧ (s.writeByte a v).run = s.run ∧
      (s.writeByte a v).env = s.env := by
  unfold State.writeByte
  split
  · obtain ⟨h1, -, h3, h4, h5⟩ := State.setViewByte_rest s a v
    exact ⟨h1, h3, h4, h5⟩
  · exact ⟨rfl, rfl, rfl, rfl⟩

/-- A byte write into plain memory leaves the registers alone. -/
theorem State.writeByte_plain {s : State} {a : Nat} (h : s.isView a = false) (v : Byte) :
    s.writeByte a v = { s with bytes := Memory.write s.bytes a v } := by
  unfold State.writeByte; simp [h]

theorem State.wf_writeByte {s : State} (h : Memory.wf s.bytes = true) {a : Nat} (ha : a < Config.memSize) (v : Byte) :
    Memory.wf (s.writeByte a v).bytes = true := by
  unfold State.writeByte
  split
  · rw [(State.setViewByte_rest s a v).2.1]; exact h
  · exact Memory.wf_write h ha v

/-- A byte read after a byte write, whether the bytes are cells or views of registers (R33, R52, R53). -/
theorem State.readByte_writeByte {s : State} (h : Memory.wf s.bytes = true) (a : Nat) (v : Byte) (b : Nat) :
    (s.writeByte a v).readByte b = if b = a then v else s.readByte b := by
  have hview : (s.writeByte a v).isView b = s.isView b :=
    State.isView_congr (by rw [(State.writeByte_rest s a v).2.2.2]) b
  unfold State.readByte
  rw [hview]
  cases ha : s.isView a with
  | true =>
    have hw : s.writeByte a v = s.setViewByte a v := by unfold State.writeByte; simp [ha]
    have ha' := (State.isView_iff s a).mp ha
    rw [hw]
    cases hb : s.isView b with
    | true =>
      have hb' := (State.isView_iff s b).mp hb
      simp only [if_true]
      exact State.viewByte_setViewByte s ha'.2 hb'.2 v
    | false =>
      have hne : b ≠ a := fun e => by rw [e, ha] at hb; exact Bool.noConfusion hb
      simp [hne, (State.setViewByte_rest s a v).2.1]
  | false =>
    rw [State.writeByte_plain ha]
    cases hb : s.isView b with
    | true =>
      have hne : b ≠ a := fun e => by rw [e, ha] at hb; exact Bool.noConfusion hb
      simp only [if_true, hne, if_false]
      exact State.viewByte_congr (s := s) rfl rfl rfl b
    | false => simp [Memory.read_write h]

/-! ## Fetch and skip -/

/-- Everything a 16-bit read can do (R52). -/
theorem State.memRead16_eq (s : State) (a : Nat) :
    (a + 1 < 4096 ∧ s.memRead16 a = .ok (wordOfBytes (s.readByte a) (s.readByte (a + 1)))) ∨
      (4096 ≤ a + 1 ∧ s.memRead16 a = .error (.executionFault a)) := by
  unfold State.memRead16
  split
  · right; exact ⟨by assumption, rfl⟩
  · next h => left; exact ⟨Nat.lt_of_not_le h, rfl⟩

/-- Everything a fetch can do (R110). -/
theorem State.fetch_cases (s : State) :
    (s.pc.toNat + 1 < 4096 ∧
      s.fetch = .ok (wordOfBytes (s.readByte s.pc.toNat) (s.readByte (s.pc.toNat + 1)), s.advance)) ∨
      (4096 ≤ s.pc.toNat + 1 ∧ s.fetch = .error (.executionFault s.pc.toNat)) := by
  unfold State.fetch
  rcases s.memRead16_eq s.pc.toNat with ⟨h, e⟩ | ⟨h, e⟩ <;> rw [e] <;> simp [h]

/-- Everything a skip can do (R115). -/
theorem State.skip_cases (s : State) :
    (s.pc.toNat + 1 < 4096 ∧ s.skip = s.advance) ∨
      (4096 ≤ s.pc.toNat + 1 ∧ s.skip = s.raise (.executionFault s.pc.toNat)) := by
  unfold State.skip
  rcases s.fetch_cases with ⟨h, e⟩ | ⟨h, e⟩ <;> rw [e] <;> simp [h]

/-- Everything a conditional skip can do (R131 to R133). -/
theorem State.skipIf_cases (s : State) (c : Bool) :
    (c = false ∧ s.skipIf c = s) ∨ (c = true ∧ s.pc.toNat + 1 < 4096 ∧ s.skipIf c = s.advance) ∨
      (c = true ∧ 4096 ≤ s.pc.toNat + 1 ∧ s.skipIf c = s.raise (.executionFault s.pc.toNat)) := by
  unfold State.skipIf
  cases c with
  | false => simp
  | true => simpa using s.skip_cases

/-- The addition of an in-range advance does not wrap (R24). -/
theorem State.advance_pc_toNat {s : State} (h : s.pc.toNat + 1 < 4096) : s.advance.pc.toNat = s.pc.toNat + 2 := by
  simp only [State.advance_pc, BitVec.toNat_add, BitVec.toNat_ofNat]
  omega

end Sys2Proof.Machine
end

