-- ==== Sys2Proof/Laws/Draw.lean ====
section
/-! SUPPORT. Everything DRW's parts can do: one pixel, one row, and the rows that remain (43_index_draw.md R162 to R167). -/

namespace Sys2Proof.Machine

/-! ## The fields a draw leaves alone -/

/-- What a pixel, a row and a run of rows leave alone: everything but the framebuffer, VF and, where a read faults, `run`. -/
structure DrawFrame (s t : State) : Prop where
  regs : ∀ r, r ≠ VF → t.reg r = s.reg r
  pc : t.pc = s.pc
  ir : t.ir = s.ir
  dt : t.dt = s.dt
  bytes : t.bytes = s.bytes
  env : t.env = s.env

theorem DrawFrame.refl (s : State) : DrawFrame s s := ⟨fun _ _ => rfl, rfl, rfl, rfl, rfl, rfl⟩

theorem DrawFrame.trans {s t u : State} (h : DrawFrame s t) (g : DrawFrame t u) : DrawFrame s u :=
  ⟨fun r hr => (g.regs r hr).trans (h.regs r hr), g.pc.trans h.pc, g.ir.trans h.ir, g.dt.trans h.dt,
    g.bytes.trans h.bytes, g.env.trans h.env⟩

theorem drawPixel_frame (vx vy : Byte) (i : Nat) (row : Byte) (s : State) (j : Nat) :
    DrawFrame s (drawPixel vx vy i row s j) := by
  refine ⟨fun r hr => ?_, rfl, rfl, rfl, rfl, rfl⟩
  unfold drawPixel; simp [hr]

theorem foldl_drawPixel_frame (vx vy : Byte) (i : Nat) (row : Byte) (js : List Nat) (s : State) :
    DrawFrame s (js.foldl (drawPixel vx vy i row) s) ∧ (js.foldl (drawPixel vx vy i row) s).run = s.run := by
  induction js generalizing s with
  | nil => exact ⟨DrawFrame.refl s, rfl⟩
  | cons j js ih =>
    obtain ⟨h1, h2⟩ := ih (drawPixel vx vy i row s j)
    exact ⟨(drawPixel_frame vx vy i row s j).trans h1, h2⟩

theorem drawRow_frame (vx vy : Byte) (i : Nat) (row : Byte) (s : State) : DrawFrame s (drawRow vx vy i row s) :=
  (foldl_drawPixel_frame vx vy i row _ s).1

theorem drawRow_run (vx vy : Byte) (i : Nat) (row : Byte) (s : State) : (drawRow vx vy i row s).run = s.run :=
  (foldl_drawPixel_frame vx vy i row _ s).2

theorem drawRows_frame (vx vy : Byte) (base left i : Nat) (s : State) :
    DrawFrame s (drawRows vx vy base left i s) := by
  induction left generalizing i s with
  | zero => exact DrawFrame.refl s
  | succ left ih =>
    unfold drawRows
    split
    · exact ⟨fun _ _ => rfl, rfl, rfl, rfl, rfl, rfl⟩
    · next row _ => exact (drawRow_frame vx vy i row s).trans (ih (i + 1) _)

/-! ## One pixel -/

/-- A pixel's cell is XORed with the sprite's bit; no other cell changes (R162). -/
theorem drawPixel_pixel (vx vy : Byte) (i : Nat) (row : Byte) (s : State) (j : Nat) (c : Col) (r : Row) :
    (drawPixel vx vy i row s j).pixel c r =
      (s.pixel c r ^^ (decide (c = wrapCol (vx.toNat + j) ∧ r = wrapRow (vy.toNat + i)) && row.getLsbD (7 - j))) := by
  unfold drawPixel
  simp only [State.pixel_setReg, State.pixel_setPixel]
  split
  · next h => simp [h.1, h.2]
  · next h => simp [h]

/-- A pixel writes VF with its own result: it went from set to unset (R164). -/
theorem drawPixel_vf (vx vy : Byte) (i : Nat) (row : Byte) (s : State) (j : Nat) :
    (drawPixel vx vy i row s j).reg VF =
      flagByte (s.pixel (wrapCol (vx.toNat + j)) (wrapRow (vy.toNat + i)) && row.getLsbD (7 - j)) := by
  unfold drawPixel unsetFlag
  simp only [State.reg_setReg, if_true]
  congr 1
  cases s.pixel _ _ <;> cases row.getLsbD (7 - j) <;> rfl

/-! ## One row -/

/-- The sprite bit that row `i` puts on cell `(c, r)`: the row must be `vy + i` and the column within eight of `vx` (R163). -/
def rowBit (vx vy : Byte) (i : Nat) (row : Byte) (c : Col) (r : Row) : Bool :=
  decide (r = wrapRow (vy.toNat + i)) && decide ((c.val + 64 - vx.toNat % 64) % 64 < 8)
    && row.getLsbD (7 - (c.val + 64 - vx.toNat % 64) % 64)

theorem wrapCol_eq_iff (vx : Byte) (c : Col) {j : Nat} (hj : j < 64) :
    c = wrapCol (vx.toNat + j) ↔ (c.val + 64 - vx.toNat % 64) % 64 = j := by
  have hc := c.isLt
  rw [Fin.ext_iff]
  show c.val = (vx.toNat + j) % 64 ↔ _
  omega

theorem wrapRow_eq_iff (vy : Byte) (r : Row) {i : Nat} (hi : i < 32) :
    r = wrapRow (vy.toNat + i) ↔ (r.val + 32 - vy.toNat % 32) % 32 = i := by
  have hr := r.isLt
  rw [Fin.ext_iff]
  show r.val = (vy.toNat + i) % 32 ↔ _
  omega

/-- Pixels at several column offsets change a cell by the offset that reaches it, if one does. -/
theorem foldl_drawPixel_pixel (vx vy : Byte) (i : Nat) (row : Byte) (js : List Nat) (hlt : ∀ j ∈ js, j < 64)
    (hnd : js.Nodup) (s : State) (c : Col) (r : Row) :
    (js.foldl (drawPixel vx vy i row) s).pixel c r =
      (s.pixel c r ^^ (decide (r = wrapRow (vy.toNat + i)) && decide ((c.val + 64 - vx.toNat % 64) % 64 ∈ js)
        && row.getLsbD (7 - (c.val + 64 - vx.toNat % 64) % 64))) := by
  induction js generalizing s with
  | nil => simp
  | cons j js ih =>
    have hj : j < 64 := hlt j List.mem_cons_self
    have hnj : j ∉ js := (List.nodup_cons.mp hnd).1
    rw [List.foldl_cons, ih (fun k hk => hlt k (List.mem_cons_of_mem j hk)) (List.nodup_cons.mp hnd).2,
      drawPixel_pixel]
    have hiff := wrapCol_eq_iff vx c hj
    generalize (c.val + 64 - vx.toNat % 64) % 64 = d at hiff ⊢
    by_cases hd : d = j
    · subst hd
      simp [hiff, hnj]
    · simp [hiff, hd]

/-- A row XORs its eight bits into eight cells of one framebuffer row (R162, R163). -/
theorem drawRow_pixel (vx vy : Byte) (i : Nat) (row : Byte) (s : State) (c : Col) (r : Row) :
    (drawRow vx vy i row s).pixel c r = (s.pixel c r ^^ rowBit vx vy i row c r) := by
  unfold drawRow rowBit
  rw [foldl_drawPixel_pixel vx vy i row _ (by decide) (by decide)]
  have : ∀ d : Nat, (d ∈ [0, 1, 2, 3, 4, 5, 6, 7]) ↔ d < 8 := fun d => by
    simp only [List.mem_cons, List.not_mem_nil, or_false]; omega
  simp only [this]

/-- After a row, VF is its last pixel's result (R164). -/
theorem drawRow_vf (vx vy : Byte) (i : Nat) (row : Byte) (s : State) :
    (drawRow vx vy i row s).reg VF =
      flagByte (s.pixel (wrapCol (vx.toNat + 7)) (wrapRow (vy.toNat + i)) && row.getLsbD 0) := by
  have hsplit : drawRow vx vy i row s = drawPixel vx vy i row ([0, 1, 2, 3, 4, 5, 6].foldl (drawPixel vx vy i row) s) 7 := rfl
  rw [hsplit, drawPixel_vf, foldl_drawPixel_pixel vx vy i row _ (by decide) (by decide)]
  have : (wrapCol (vx.toNat + 7)).val = (vx.toNat + 7) % 64 := rfl
  have hd : ((wrapCol (vx.toNat + 7)).val + 64 - vx.toNat % 64) % 64 = 7 := by rw [this]; omega
  rw [hd]
  simp

/-! ## The rows that remain -/

/-- A row whose byte is in range is drawn, and the rows after it follow (R162). -/
theorem drawRows_succ {base i : Nat} (h : base + i < 4096) (vx vy : Byte) (left : Nat) (s : State) :
    drawRows vx vy base (left + 1) i s = drawRows vx vy base left (i + 1) (drawRow vx vy i (s.readByte (base + i)) s) := by
  have hm : s.memRead8 (base + i) = .ok (s.readByte (base + i)) := by
    unfold State.memRead8; exact if_neg (Nat.not_le.mpr h)
  rw [drawRows, hm]

/-- A row whose byte is out of range halts the core with its address, and nothing more is drawn (R165). -/
theorem drawRows_fault {base i : Nat} (h : 4096 ≤ base + i) (vx vy : Byte) (left : Nat) (s : State) :
    drawRows vx vy base (left + 1) i s = s.raise (.executionFault (base + i)) := by
  have hm : s.memRead8 (base + i) = .error (.executionFault (base + i)) := by
    unfold State.memRead8; exact if_pos h
  rw [drawRows, hm]

/-- Rows in range can be drawn in two goes (R162). -/
theorem drawRows_add (vx vy : Byte) (base a b i : Nat) (s : State) (h : base + i + a ≤ 4096 ∨ a = 0) :
    drawRows vx vy base (a + b) i s = drawRows vx vy base b (i + a) (drawRows vx vy base a i s) := by
  induction a generalizing i s with
  | zero => simp [drawRows]
  | succ a ih =>
    have hr : base + i < 4096 := by omega
    rw [show a + 1 + b = (a + b) + 1 by omega, drawRows_succ hr, drawRows_succ hr, ih (i + 1) _ (by omega),
      show i + 1 + a = i + (a + 1) by omega]

/-- Rows that are all in range leave `run` alone. -/
theorem drawRows_run (vx vy : Byte) (base left i : Nat) (s : State) (h : base + i + left ≤ 4096 ∨ left = 0) :
    (drawRows vx vy base left i s).run = s.run := by
  induction left generalizing i s with
  | zero => rfl
  | succ left ih =>
    rw [drawRows_succ (by omega), ih (i + 1) _ (by omega), drawRow_run]

end Sys2Proof.Machine
end

