-- ==== Sys2Proof/Laws/Step.lean ====
section
/-! SUPPORT. What a step, a cycle and a fetched word can do, once each, for every proof about runs to cite. -/

namespace Sys2Proof.Machine

/-- Everything a step can answer: an event is there and is delivered, or is the slice's second tick, or the host has quit. -/
theorem step_cases (s : State) :
    (s.nextEvent = none ∧ step s = .fault .hostQuit) ∨
      (s.nextEvent = some .tick ∧ s.secondTick = true ∧ step s = .refused .secondTickInSlice) ∨
      ∃ ev, s.nextEvent = some ev ∧ ¬ (ev = .tick ∧ s.secondTick = true) ∧ step s = applyEvent ev (s.take ev) := by
  unfold step
  cases h : s.nextEvent with
  | none => exact Or.inl ⟨rfl, rfl⟩
  | some ev =>
    right
    unfold deliver
    by_cases hd : ev = .tick ∧ s.secondTick = true
    · left; exact ⟨by rw [hd.1], hd.2, if_pos hd⟩
    · right; exact ⟨ev, rfl, hd, if_neg hd⟩

/-- A step that answers a next state has delivered an event. -/
theorem step_next {s t : State} (h : step s = .next t) :
    ∃ ev, s.nextEvent = some ev ∧ ¬ (ev = .tick ∧ s.secondTick = true) ∧ applyEvent ev (s.take ev) = .next t := by
  rcases step_cases s with ⟨-, e⟩ | ⟨-, -, e⟩ | ⟨ev, h1, h2, e⟩
  · rw [e] at h; cases h
  · rw [e] at h; cases h
  · exact ⟨ev, h1, h2, e ▸ h⟩

/-- An event other than `Tick` is always delivered. -/
theorem step_of_event {s : State} {ev : Event} (h : s.nextEvent = some ev) (hne : ev ≠ .tick) :
    step s = applyEvent ev (s.take ev) := by
  unfold step deliver
  rw [h]
  exact if_neg fun hd => hne hd.1

/-- A run goes on from the state a step answers. -/
theorem core_run_succ {s t : State} (h : step s = .next t) (k : Nat) :
    Sys2Proof.core.run (k + 1) s = Sys2Proof.core.run k t := by
  have h' : Sys2Proof.core.step s = .next t := h
  simp only [Host.Core.run, h']

/-- A `Cycle` outside Running does nothing (R118). -/
theorem cycle_of_not_running {s : State} (h : s.run ≠ .running) : cycle s = .next s := by
  unfold cycle
  cases hr : s.run with
  | running => exact absurd hr h
  | loading => rfl
  | waitKey _ => rfl
  | halted _ => rfl

/-- Everything a `Cycle` in Running can do (R111): the fetch faults, or its word is no instruction, or it is one and is executed. -/
theorem cycle_cases {s : State} (h : s.run = .running) :
    (4096 ≤ s.pc.toNat + 1 ∧ cycle s = .next (s.raise (.executionFault s.pc.toNat))) ∨
      (s.pc.toNat + 1 < 4096 ∧
        let w := wordOfBytes (s.readByte s.pc.toNat) (s.readByte (s.pc.toNat + 1))
        (decode w = none ∧ cycle s = .next (s.advance.raise (.decodeError w s.pc.toNat))) ∨
          ∃ i, decode w = some i ∧ cycle s = exec i s.advance) := by
  have hc : cycle s = cycleRunning s := by unfold cycle; rw [h]
  rw [hc]
  unfold cycleRunning
  rcases s.fetch_cases with ⟨hp, e⟩ | ⟨hp, e⟩
  · right
    refine ⟨hp, ?_⟩
    rw [e]
    simp only [runWord]
    cases hd : decode (wordOfBytes (s.readByte s.pc.toNat) (s.readByte (s.pc.toNat + 1))) with
    | none =>
      left
      refine ⟨rfl, ?_⟩
      rw [State.advance_pc_toNat hp, Nat.add_sub_cancel]
    | some i => right; exact ⟨i, rfl, rfl⟩
  · left; rw [e]; exact ⟨hp, rfl⟩

/-- Taking an event other than `Quit` removes it from the pending ones, if it is there, and leaves the pacing. -/
theorem scheduleAfter_pending {e : Env} {r : RunState} {ev : Event} (h : ev ≠ .quit) :
    (scheduleAfter e r ev).pending = e.pending.erase ev ∧ (scheduleAfter e r ev).pacing = e.pacing := by
  cases ev <;> first | exact ⟨rfl, rfl⟩ | exact absurd rfl h

/-! ## Which event comes next -/

/-- `a` precedes `b` exactly when both have a place in a slice and `a`'s is earlier. -/
theorem precedes_iff {a b : Event} :
    precedes a b = true ↔ ∃ i j, sliceRank a = some i ∧ sliceRank b = some j ∧ i < j := by
  unfold precedes
  cases sliceRank a <;> cases sliceRank b <;> simp

/-- Nothing precedes an event that has no place in a slice. -/
theorem not_precedes_unranked {a b : Event} (h : sliceRank b = none) : precedes a b = false :=
  Bool.eq_false_iff.mpr fun hp => by
    obtain ⟨_, j, -, hj, -⟩ := precedes_iff.mp hp
    rw [h] at hj; cases hj

/-- Nothing precedes a `Tick`. -/
@[simp] theorem not_precedes_tick (a : Event) : precedes a .tick = false := by cases a <;> rfl

/-- What does not precede `b` does not precede an event that does. -/
theorem not_precedes_trans {a b c : Event} (hab : precedes a b = false) (hcb : precedes c b = true) :
    precedes a c = false :=
  Bool.eq_false_iff.mpr fun hac => by
    obtain ⟨i, j, h1, h2, h3⟩ := precedes_iff.mp hac
    obtain ⟨j', k, h4, h5, h6⟩ := precedes_iff.mp hcb
    have : precedes a b = true := precedes_iff.mpr ⟨i, k, h1, h5, by rw [h2] at h4; cases h4; omega⟩
    rw [hab] at this; cases this

/-- The first event of a slice is one of its events, and none of them precedes it. -/
theorem firstOf_spec (ev : Event) (l : List Event) :
    firstOf ev l ∈ ev :: l ∧ ∀ a ∈ ev :: l, precedes a (firstOf ev l) = false := by
  have self : ∀ b : Event, precedes b b = false := fun b => by cases b <;> rfl
  have main : ∀ (l : List Event) (best : Event) (seen : List Event), best ∈ seen →
      (∀ a ∈ seen, precedes a best = false) →
      l.foldl (fun best ev => if precedes ev best then ev else best) best ∈ seen ++ l ∧
        ∀ a ∈ seen ++ l, precedes a (l.foldl (fun best ev => if precedes ev best then ev else best) best) = false := by
    intro l
    induction l with
    | nil => intro best seen hb hs; simpa using ⟨hb, hs⟩
    | cons x l ih =>
      intro best seen hb hs
      rw [List.foldl_cons, List.append_cons]
      by_cases hx : precedes x best = true
      · rw [if_pos hx]
        refine ih x (seen ++ [x]) (by simp) fun a ha => ?_
        rcases List.mem_append.mp ha with ha | ha
        · exact not_precedes_trans (hs a ha) hx
        · rw [List.mem_singleton.mp ha]; exact self x
      · rw [if_neg hx]
        refine ih best (seen ++ [x]) (by simp [hb]) fun a ha => ?_
        rcases List.mem_append.mp ha with ha | ha
        · exact hs a ha
        · rw [List.mem_singleton.mp ha]; exact Bool.eq_false_iff.mpr hx
  exact main l ev [ev] (by simp) fun a ha => by rw [List.mem_singleton.mp ha]; exact self ev

/-- The oldest event of a slice comes first when nothing precedes it. -/
theorem firstOf_eq {ev : Event} {l : List Event} (h : ∀ a ∈ l, precedes a ev = false) : firstOf ev l = ev := by
  induction l with
  | nil => rfl
  | cons x l ih =>
    have hx := h x (by simp)
    unfold firstOf
    rw [List.foldl_cons, if_neg (by rw [hx]; decide)]
    exact ih fun a ha => h a (by simp [ha])

/-- The events of the slice are pending events. -/
theorem mem_of_mem_sliceOf {r : RunState} {ev : Event} {l : List Event} (h : ev ∈ sliceOf r l) : ev ∈ l := by
  induction l with
  | nil => cases h
  | cons x l ih =>
    unfold sliceOf at h
    split at h
    · rw [List.mem_singleton.mp h]; simp
    · rcases List.mem_cons.mp h with h | h
      · rw [h]; simp
      · exact List.mem_cons_of_mem _ (ih h)

/-- Taking an event that does not end the slice leaves the other events of the slice. -/
theorem sliceOf_erase {r : RunState} {ev : Event} {l : List Event} (hev : ev ∈ sliceOf r l)
    (he : endsSlice r ev = false) : sliceOf r (l.erase ev) = (sliceOf r l).erase ev := by
  induction l with
  | nil => rfl
  | cons x l ih =>
    by_cases hx : x = ev
    · subst hx; simp [sliceOf, he]
    · unfold sliceOf at hev
      rw [List.erase_cons_tail (by simpa using hx), sliceOf, sliceOf]
      split
      · next h => rw [if_pos h] at hev; exact absurd (List.mem_singleton.mp hev).symm hx
      · next h =>
        rw [if_neg h] at hev
        rw [List.erase_cons_tail (by simpa using hx), ih ((List.mem_cons.mp hev).resolve_left fun e => hx e.symm)]

/-- Everything the next event can be: one of the slice's that none of the slice precedes, or the `Tick` the nominal schedule owes it,
or with nothing pending what the pacing gives. -/
theorem nextEvent_cases (s : State) :
    (∃ ev, s.nextEvent = some ev ∧ ev ∈ sliceOf s.run s.env.pending ∧
        (∀ a ∈ sliceOf s.run s.env.pending, precedes a ev = false) ∧ (s.owesTick = true → precedes .tick ev = false)) ∨
      (s.nextEvent = some .tick ∧ s.owesTick = true) ∨
      (s.env.pending = [] ∧ ((s.env.pacing = .nominal ∧ s.nextEvent = if s.env.ticked then some .cycle else some .tick) ∨
        (s.env.pacing = .cyclesOnly ∧ s.nextEvent = some .cycle) ∨ (s.env.pacing = .stopped ∧ s.nextEvent = none))) := by
  unfold State.nextEvent
  cases hs : sliceOf s.run s.env.pending with
  | nil =>
    right; right
    refine ⟨?_, ?_⟩
    · cases hp : s.env.pending with
      | nil => rfl
      | cons x l => rw [hp] at hs; unfold sliceOf at hs; split at hs <;> cases hs
    · cases s.env.pacing <;> simp
  | cons x l =>
    obtain ⟨h1, h2⟩ := firstOf_spec x l
    by_cases ho : s.owesTick = true ∧ precedes .tick (firstOf x l) = true
    · right; left
      exact ⟨by simp [ho.1, ho.2], ho.1⟩
    · left
      refine ⟨firstOf x l, ?_, h1, h2, fun h => Bool.eq_false_iff.mpr fun hp => ho ⟨h, hp⟩⟩
      simp only [Bool.and_eq_true]
      exact if_neg ho

/-- With nothing pending the pacing gives the next event. -/
theorem nextEvent_of_nil {s : State} (h : s.env.pending = []) :
    s.nextEvent = match s.env.pacing with
      | .nominal => if s.env.ticked then some .cycle else some .tick
      | .cyclesOnly => some .cycle
      | .stopped => none := by
  unfold State.nextEvent
  rw [h]
  rfl

/-- A pending event with no place in a slice, when it is the oldest, comes next. -/
theorem nextEvent_of_unranked {s : State} {ev : Event} {l : List Event} (h : s.env.pending = ev :: l)
    (hr : sliceRank ev = none) : s.nextEvent = some ev := by
  have hf : ∀ l, firstOf ev l = ev := fun l => firstOf_eq fun a _ => not_precedes_unranked hr
  unfold State.nextEvent
  rw [h, sliceOf]
  cases endsSlice s.run ev <;> simp [hf, not_precedes_unranked hr]

/-- A `Tick` that is the oldest pending event comes next. -/
theorem nextEvent_of_tick {s : State} {l : List Event} (h : s.env.pending = .tick :: l) : s.nextEvent = some .tick := by
  unfold State.nextEvent
  rw [h, sliceOf, if_neg (by simp [endsSlice])]
  simp [firstOf_eq]

/-- A `Cycle` that is the oldest pending event comes next. -/
theorem nextEvent_of_cycle {s : State} {l : List Event} (h : s.env.pending = .cycle :: l) : s.nextEvent = some .cycle := by
  unfold State.nextEvent
  rw [h, sliceOf, if_pos (by rfl)]
  simp [firstOf, State.owesTick, h]

end Sys2Proof.Machine
end

