-- ==== Sys2Proof/Laws/Frame.lean ====
section
/-! SUPPORT. The frames of the shared operations, once each: what a register write, a result with its flag, a skip and a step's
bookkeeping leave unchanged. -/

namespace Sys2Proof.Machine

theorem SameRegs.of_x {s t : State} (h : t.x = s.x) (but : List Reg) : SameRegs s t but := fun r _ => State.reg_congr h r

/-- Cells and alias parameter alike, memory reads alike. -/
theorem SameMemory.of_eq {s t : State} (hb : t.bytes = s.bytes) (he : t.env.regAlias = s.env.regAlias) : SameMemory s t :=
  ⟨hb, fun a ha => by
    have hv : t.isView a = false := by rw [State.isView_congr he]; exact ha
    rw [State.readByte_of_not_view ha, State.readByte_of_not_view hv, hb]⟩

theorem SameBlock.take (s : State) (ev : Event) : SameBlock s (s.take ev) := ⟨rfl, rfl, rfl, rfl, rfl, rfl, rfl⟩

@[simp] theorem State.readByte_take (s : State) (ev : Event) (a : Nat) : (s.take ev).readByte a = s.readByte a :=
  State.readByte_congr (s := s) (t := s.take ev) rfl rfl rfl rfl (by simp) a

theorem State.setReg_frame (s : State) (x : Reg) (v : Byte) : RegFrame s (s.setReg x v) [x] :=
  ⟨fun r hr => by rw [State.reg_setReg, if_neg (List.ne_of_not_mem_cons hr)], rfl, rfl, rfl, .of_eq rfl rfl, rfl, rfl, rfl⟩

theorem State.setResult_frame (s : State) (x : Reg) (v : Byte) (f : Bool) : RegFrame s (s.setResult x v f) [x, VF] :=
  ⟨fun r hr => by
    rw [List.mem_cons, List.mem_singleton, not_or] at hr
    rw [State.reg_setResult, if_neg hr.2, if_neg hr.1], rfl, rfl, rfl, .of_eq rfl rfl, rfl, rfl, rfl⟩

theorem State.advance_frame (s : State) : PcFrame s s.advance :=
  ⟨.of_x rfl _, rfl, rfl, .of_eq rfl rfl, rfl, rfl, rfl⟩

end Sys2Proof.Machine
end

