-- ==== Sys2Proof/Laws/PerInstr.lean ====
section
/-! SUPPORT. Statements made per instruction. Family MatchesRow: an instruction's encoded word lies in its own row of the opcode map,
by that row's mask and match (30_encoding.md R84). -/

namespace Sys2Proof

/-- The word that `encode` gives is matched by the instruction's row (R84). -/
def Laws.MatchesRow.Statement (i : Instr) : Prop := i.row.hits (encode i) = true

/-- A mask of the primary opcode sees the primary opcode only. -/
theorem mask_nibble1 (n1 : BitVec 4) (a : Addr12) : formatNNN n1 a &&& 0xF000#16 = formatNNN n1 0#12 := by
  have h : (0xF000#16 : Word) = (0xF#4 ++ 0#12 : BitVec 16) := by decide
  unfold formatNNN
  rw [h, BitVec.and_append]
  have h1 : n1 &&& 0xF#4 = n1 := by revert n1; decide
  simp [h1]

/-- A mask of the first and last nibble sees those two. -/
theorem mask_nibbles (n1 : BitVec 4) (x y : Reg) (n4 : BitVec 4) :
    formatXYN n1 x y n4 &&& 0xF00F#16 = formatXYN n1 0 0 n4 := by
  have h : (0xF00F#16 : Word) = (0xF#4 ++ (0#4 ++ (0#4 ++ 0xF#4)) : BitVec 16) := by decide
  unfold formatXYN
  rw [h, BitVec.and_append, BitVec.and_append, BitVec.and_append]
  have h1 : ∀ n : BitVec 4, n &&& 0xF#4 = n := by decide
  have h0 : bitsOfReg 0 = 0#4 := by decide
  rw [h1, h1, h0, BitVec.and_zero, BitVec.and_zero]

/-- A mask of the first nibble and the low byte sees those two. -/
theorem mask_lowByte (n1 : BitVec 4) (x : Reg) (nn : Byte) :
    formatXNN n1 x nn &&& 0xF0FF#16 = formatXNN n1 0 nn := by
  have h : (0xF0FF#16 : Word) = (0xF#4 ++ (0#4 ++ 0xFF#8) : BitVec 16) := by decide
  unfold formatXNN
  rw [h, BitVec.and_append, BitVec.and_append]
  have h1 : n1 &&& 0xF#4 = n1 := by revert n1; decide
  have h2 : nn &&& 0xFF#8 = nn := by revert nn; decide
  have h0 : bitsOfReg 0 = 0#4 := by decide
  rw [h1, h2, h0, BitVec.and_zero]

theorem hits_of_mask {r : OpRow} {w v : Word} (h : w &&& r.mask = v) (hv : v = r.pat) : r.hits w = true := by
  unfold OpRow.hits; rw [h, hv]; exact beq_self_eq_true _

theorem Laws.MatchesRow.cls : Laws.MatchesRow.Statement .cls := by unfold Laws.MatchesRow.Statement; decide
theorem Laws.MatchesRow.jp (nnn : Addr12) : Laws.MatchesRow.Statement (.jp nnn) :=
  hits_of_mask (mask_nibble1 0x1#4 nnn) rfl
theorem Laws.MatchesRow.seImm (x : Reg) (nn : Byte) : Laws.MatchesRow.Statement (.seImm x nn) :=
  hits_of_mask (mask_nibble1 0x3#4 (bitsOfReg x ++ nn)) rfl
theorem Laws.MatchesRow.sne (x : Reg) (nn : Byte) : Laws.MatchesRow.Statement (.sne x nn) :=
  hits_of_mask (mask_nibble1 0x4#4 (bitsOfReg x ++ nn)) rfl
theorem Laws.MatchesRow.seDir (x y : Reg) : Laws.MatchesRow.Statement (.seDir x y) :=
  hits_of_mask (mask_nibbles 0x5#4 x y 0x0#4) rfl
theorem Laws.MatchesRow.ldImm (x : Reg) (nn : Byte) : Laws.MatchesRow.Statement (.ldImm x nn) :=
  hits_of_mask (mask_nibble1 0x6#4 (bitsOfReg x ++ nn)) rfl
theorem Laws.MatchesRow.addImm (x : Reg) (nn : Byte) : Laws.MatchesRow.Statement (.addImm x nn) :=
  hits_of_mask (mask_nibble1 0x7#4 (bitsOfReg x ++ nn)) rfl
theorem Laws.MatchesRow.ldDir (x y : Reg) : Laws.MatchesRow.Statement (.ldDir x y) :=
  hits_of_mask (mask_nibbles 0x8#4 x y 0x0#4) rfl
theorem Laws.MatchesRow.or (x y : Reg) : Laws.MatchesRow.Statement (.or x y) :=
  hits_of_mask (mask_nibbles 0x8#4 x y 0x1#4) rfl
theorem Laws.MatchesRow.and (x y : Reg) : Laws.MatchesRow.Statement (.and x y) :=
  hits_of_mask (mask_nibbles 0x8#4 x y 0x2#4) rfl
theorem Laws.MatchesRow.xor (x y : Reg) : Laws.MatchesRow.Statement (.xor x y) :=
  hits_of_mask (mask_nibbles 0x8#4 x y 0x3#4) rfl
theorem Laws.MatchesRow.addDir (x y : Reg) : Laws.MatchesRow.Statement (.addDir x y) :=
  hits_of_mask (mask_nibbles 0x8#4 x y 0x4#4) rfl
theorem Laws.MatchesRow.sub (x y : Reg) : Laws.MatchesRow.Statement (.sub x y) :=
  hits_of_mask (mask_nibbles 0x8#4 x y 0x5#4) rfl
theorem Laws.MatchesRow.shr (x y : Reg) : Laws.MatchesRow.Statement (.shr x y) :=
  hits_of_mask (mask_nibbles 0x8#4 x y 0x6#4) rfl
theorem Laws.MatchesRow.subn (x y : Reg) : Laws.MatchesRow.Statement (.subn x y) :=
  hits_of_mask (mask_nibbles 0x8#4 x y 0x7#4) rfl
theorem Laws.MatchesRow.shl (x y : Reg) : Laws.MatchesRow.Statement (.shl x y) :=
  hits_of_mask (mask_nibbles 0x8#4 x y 0xE#4) rfl
theorem Laws.MatchesRow.ldi (nnn : Addr12) : Laws.MatchesRow.Statement (.ldi nnn) :=
  hits_of_mask (mask_nibble1 0xA#4 nnn) rfl
theorem Laws.MatchesRow.jpOff (nnn : Addr12) : Laws.MatchesRow.Statement (.jpOff nnn) :=
  hits_of_mask (mask_nibble1 0xB#4 nnn) rfl
theorem Laws.MatchesRow.drw (x y : Reg) (n : Nat) : Laws.MatchesRow.Statement (.drw x y n) :=
  hits_of_mask (mask_nibble1 0xD#4 (bitsOfReg x ++ (bitsOfReg y ++ BitVec.ofNat 4 n))) rfl
theorem Laws.MatchesRow.ldvdt (x : Reg) : Laws.MatchesRow.Statement (.ldvdt x) :=
  hits_of_mask (mask_lowByte 0xF#4 x 0x07#8) rfl
theorem Laws.MatchesRow.ldk (x : Reg) : Laws.MatchesRow.Statement (.ldk x) :=
  hits_of_mask (mask_lowByte 0xF#4 x 0x0A#8) rfl
theorem Laws.MatchesRow.lddt (x : Reg) : Laws.MatchesRow.Statement (.lddt x) :=
  hits_of_mask (mask_lowByte 0xF#4 x 0x15#8) rfl
theorem Laws.MatchesRow.haltSentinel : Laws.MatchesRow.Statement .haltSentinel := by
  unfold Laws.MatchesRow.Statement; decide

end Sys2Proof
end

