-- ==== Sys2Proof/Tests/Slice0.lean ====
section
/-! SUPPORT. The model's own tests, and a witness for the hypotheses of every obligation that has some. Expected values are those of
spec/95_test_vectors.md (its vector is named) or are read off the rule named; none was taken from the model. -/

namespace Sys2Proof.Tests

open Sys2Proof Sys2Proof.Machine

/-! ## Small states -/

/-- The launch state (R243) with only `Cycle`s to come. -/
def launch : State :=
  { State.reset with pc := 0x200#16, run := .running, env := { State.reset.env with pacing := .cyclesOnly } }

/-- With registers set. -/
def State.regs (s : State) (rs : List (Reg × Byte)) : State := rs.foldl (fun t r => t.setReg r.1 r.2) s

/-- With bytes stored. -/
def State.stored (s : State) (bs : List (Nat × Byte)) : State := bs.foldl (fun t b => t.writeByte b.1 b.2) s

/-- With one event pending. -/
def State.facing (s : State) (ev : Event) : State := { s with env := { s.env with pending := [ev] } }

/-- With the registers aliased to bytes 0..19. -/
def State.aliased (s : State) : State := { s with env := { s.env with regAlias := .aliased } }

/-- Whether a next state is answered and passes the check. -/
def nextIs (o : Host.Outcome State Fault Refusal) (p : State → Bool) : Bool :=
  match o with
  | .next t => p t
  | .fault _ => false
  | .refused _ => false

/-- One step of the word `w`, placed where it is fetched next. -/
def runs (s : State) (w : Nat) (p : State → Bool) : Bool := nextIs (step (s.withFetchWord 16 w)) p

/-! ## Well-formedness: the one check there is -/

theorem test_drw_of_16_rows_is_ill_formed : Instr.wellFormed (.drw 0 0 16) = false := by decide
theorem test_drw_of_15_rows_is_well_formed : Instr.wellFormed (.drw 0 0 15) = true := by decide

/-! ## Decoding: words written nibble by nibble from R84 -/

theorem test_decode_cls : decode 0b0000000011100000#16 = some .cls := by decide
theorem test_decode_jp : decode 0b0001101010111100#16 = some (.jp 0xABC#12) := by decide
theorem test_decode_seImm : decode 0b0011101000010010#16 = some (.seImm 10 0x12#8) := by decide
theorem test_decode_sne : decode 0b0100001001111111#16 = some (.sne 2 0x7F#8) := by decide
theorem test_decode_seDir : decode 0b0101000100100000#16 = some (.seDir 1 2) := by decide
theorem test_decode_ldImm : decode 0b0110101011111111#16 = some (.ldImm 10 0xFF#8) := by decide
theorem test_decode_addImm : decode 0b0111111100000001#16 = some (.addImm 15 0x01#8) := by decide
theorem test_decode_ldDir : decode 0b1000111100000000#16 = some (.ldDir 15 0) := by decide
theorem test_decode_or : decode 0b1000000100100001#16 = some (.or 1 2) := by decide
theorem test_decode_and : decode 0b1000000100100010#16 = some (.and 1 2) := by decide
theorem test_decode_xor : decode 0b1000000100100011#16 = some (.xor 1 2) := by decide
theorem test_decode_addDir : decode 0b1000000100100100#16 = some (.addDir 1 2) := by decide
theorem test_decode_sub : decode 0b1000000100100101#16 = some (.sub 1 2) := by decide
theorem test_decode_shr : decode 0b1000000100100110#16 = some (.shr 1 2) := by decide
theorem test_decode_subn : decode 0b1000000100100111#16 = some (.subn 1 2) := by decide
theorem test_decode_shl : decode 0b1000111111111110#16 = some (.shl 15 15) := by decide
theorem test_decode_ldi : decode 0b1010000100100011#16 = some (.ldi 0x123#12) := by decide
theorem test_decode_jpOff : decode 0b1011001100000000#16 = some (.jpOff 0x300#12) := by decide
theorem test_decode_drw : decode 0b1101000000010101#16 = some (.drw 0 1 5) := by decide
theorem test_decode_ldvdt : decode 0b1111000100000111#16 = some (.ldvdt 1) := by decide
theorem test_decode_ldk : decode 0b1111000100001010#16 = some (.ldk 1) := by decide
theorem test_decode_lddt : decode 0b1111000100010101#16 = some (.lddt 1) := by decide
theorem test_decode_haltSentinel : decode 0b0000000000000000#16 = some .haltSentinel := by decide

/-- DEC-1 to DEC-27: no row has these words. -/
theorem test_decode_failures :
    ([0x00EE#16, 0x0001#16, 0x00E1#16, 0x0FFF#16, 0x2200#16, 0x9010#16, 0xC0FF#16, 0xE09E#16, 0xE0A1#16]
      ++ [0xF018#16, 0xF01E#16, 0xF029#16, 0xF033#16, 0xF055#16, 0xF065#16, 0xF000#16, 0xF00B#16, 0xF016#16]
      ++ [0x8018#16, 0x8019#16, 0x801A#16, 0x801D#16, 0x801F#16, 0x5011#16, 0x501F#16, 0xE000#16, 0xFFFF#16]).map decode
      = List.replicate 27 none := by decide

/-- R80: the first byte is the high byte, what follows stays, and one byte is no instruction. -/
theorem test_decode_bytes :
    decodeBytes [0xD0#8, 0x15#8, 0x77#8] = .ok (.drw 0 1 5, [0x77#8]) ∧ decodeBytes [0xD0#8] = .error .truncated := by
  exact ⟨rfl, rfl⟩

/-- The numbers of a table row, as bits of its one word. -/
theorem test_decode_table_word :
    decodeTableWord 16 0x8FF4 = some (.addDir 15 15) ∧ decodeTableWord 16 0x2200 = none := by decide

/-- R91's examples, one of each operand form. -/
theorem test_assembly : [Instr.cls, .jp 0x204#12, .sne 2 0x7F#8, .sub 0 1, .shl 0 0, .drw 0 1 5, .ldvdt 1].map Instr.asm
    = ["CLS", "JP 0x204", "SNE V2, 0x7F", "SUB V0, V1", "SHL V0", "DRW V0, V1, 5", "LDVDT V1"] := by decide

/-! ## Instructions, one step each -/

/-- DRW-22. -/
theorem test_cls : runs { launch with fb := Vector.replicate 32 5#64 } 0x00E0
    (fun t => decide (t.fb = Vector.replicate 32 0#64) && t.pc == 0x202#16) = true := by decide
/-- CF-1. -/
theorem test_jp : runs launch 0x1ABC (fun t => t.pc == 0xABC#16) = true := by decide
/-- CF-4. -/
theorem test_seImm_taken : runs (State.regs launch [(0, 0x12#8)]) 0x3012 (fun t => t.pc == 0x204#16) = true := by decide
/-- CF-15: the word skipped would lie at 0x1000. -/
theorem test_seImm_skips_out_of_range : runs { launch with pc := 0xFFE#16 } 0x3000
    (fun t => t.pc == 0x1000#16 && decide (t.run = .halted (.executionFault 0x1000))) = true := by decide
/-- CF-7. -/
theorem test_sne_taken : runs (State.regs launch [(0, 0x13#8)]) 0x4012 (fun t => t.pc == 0x204#16) = true := by decide
/-- CF-6. -/
theorem test_sne_not_taken : runs (State.regs launch [(0, 0x12#8)]) 0x4012 (fun t => t.pc == 0x202#16) = true := by decide
/-- CF-8. -/
theorem test_seDir_taken : runs (State.regs launch [(0, 4#8), (1, 4#8)]) 0x5010 (fun t => t.pc == 0x204#16) = true := by
  decide
/-- CF-9. -/
theorem test_seDir_not_taken : runs (State.regs launch [(0, 4#8), (1, 5#8)]) 0x5010 (fun t => t.pc == 0x202#16) = true := by
  decide
/-- ALU-1. -/
theorem test_ldImm : runs launch 0x6AFF (fun t => t.reg 10 == 0xFF#8) = true := by decide
/-- ALU-2. -/
theorem test_addImm_wraps : runs (State.regs launch [(0, 0xFF#8), (15, 0xAA#8)]) 0x7001
    (fun t => t.reg 0 == 0#8 && t.reg 15 == 0xAA#8) = true := by decide
/-- ALU-5. -/
theorem test_ldDir : runs (State.regs launch [(1, 7#8), (15, 9#8)]) 0x8010
    (fun t => t.reg 0 == 7#8 && t.reg 15 == 9#8) = true := by decide
/-- ALU-7. -/
theorem test_or : runs (State.regs launch [(0, 0x0F#8), (1, 0xF0#8), (15, 5#8)]) 0x8011
    (fun t => t.reg 0 == 0xFF#8 && t.reg 15 == 5#8) = true := by decide
/-- ALU-8. -/
theorem test_and : runs (State.regs launch [(0, 0x3C#8), (1, 0x0F#8)]) 0x8012 (fun t => t.reg 0 == 0x0C#8) = true := by decide
/-- ALU-9. -/
theorem test_xor : runs (State.regs launch [(0, 0xFF#8), (1, 0x0F#8)]) 0x8013 (fun t => t.reg 0 == 0xF0#8) = true := by decide
/-- ALU-15. -/
theorem test_addDir_carries : runs (State.regs launch [(0, 0x80#8), (1, 0x80#8)]) 0x8014
    (fun t => t.reg 0 == 0#8 && t.reg 15 == 1#8) = true := by decide
/-- ALU-17. -/
theorem test_addDir_into_VF : runs (State.regs launch [(15, 0x10#8), (1, 0x20#8)]) 0x8F14 (fun t => t.reg 15 == 0#8) = true := by
  decide
/-- ALU-23, scenario S3. -/
theorem test_sub_borrows : runs (State.regs launch [(0, 3#8), (1, 5#8), (15, 1#8)]) 0x8015
    (fun t => t.reg 0 == 0xFE#8 && t.reg 15 == 0#8) = true := by decide
/-- ALU-24. -/
theorem test_sub_of_equals : runs (State.regs launch [(0, 7#8), (1, 7#8)]) 0x8015
    (fun t => t.reg 0 == 0#8 && t.reg 15 == 1#8) = true := by decide
/-- ALU-37. -/
theorem test_shr_ignores_Vy : runs (State.regs launch [(0, 3#8), (1, 0xFF#8)]) 0x8016
    (fun t => t.reg 0 == 1#8 && t.reg 1 == 0xFF#8 && t.reg 15 == 1#8) = true := by decide
/-- ALU-41. -/
theorem test_shr_of_VF : runs (State.regs launch [(15, 2#8)]) 0x8F16 (fun t => t.reg 15 == 0#8) = true := by decide
/-- ALU-32. -/
theorem test_subn : runs (State.regs launch [(0, 3#8), (1, 5#8)]) 0x8017
    (fun t => t.reg 0 == 2#8 && t.reg 15 == 1#8) = true := by decide
/-- ALU-33. -/
theorem test_subn_borrows : runs (State.regs launch [(0, 5#8), (1, 3#8)]) 0x8017
    (fun t => t.reg 0 == 0xFE#8 && t.reg 15 == 0#8) = true := by decide
/-- ALU-43. -/
theorem test_shl : runs (State.regs launch [(0, 0x81#8)]) 0x801E
    (fun t => t.reg 0 == 2#8 && t.reg 15 == 1#8) = true := by decide
/-- ALU-48. -/
theorem test_shl_ignores_Vy : runs (State.regs launch [(0, 1#8), (15, 0x55#8)]) 0x80FE
    (fun t => t.reg 0 == 2#8 && t.reg 15 == 0#8) = true := by decide
/-- DRW-24. -/
theorem test_ldi : runs launch 0xAFFF (fun t => t.ir == 0xFFF#16 && decide (t.run = .running)) = true := by decide
/-- CF-13: the sum is not masked. -/
theorem test_jpOff : runs (State.regs launch [(0, 0xFF#8)]) 0xBFFF (fun t => t.pc == 0x10FE#16) = true := by decide
set_option maxRecDepth 8192 in
/-- DRW-9: both axes wrap. DRW-19: 14 rows are drawn, then row 14 is out of range. -/
theorem test_drw_wraps_and_faults_midway :
    runs { State.stored (State.regs launch [(0, 0x3F#8), (1, 0x1F#8)]) [(0x300, 0xC0#8), (0x301, 0xC0#8)] with ir := 0x300#16 } 0xD012
      (fun t => decide (t.fb[31] = 0x8000000000000001#64) && decide (t.fb[0] = 0x8000000000000001#64) && decide (t.fb[1] = 0#64)
        && t.reg 15 == 0#8) = true ∧
    runs { State.regs launch [(15, 9#8)] with
        bytes := (List.range' 0xFF2 14).map (fun a => (a, 0x80#8)), ir := 0xFF2#16 } 0xD01F
      (fun t => decide (t.run = .halted (.executionFault 0x1000)) && decide (t.fb[13] = 1#64) && decide (t.fb[14] = 0#64)
        && t.reg 15 == 0#8) = true := by decide
set_option maxRecDepth 8192 in
/-- DRW-2: a collision at the first pixel is lost. DRW-14: VF is the x coordinate, sampled once, and the last pixel collides. -/
theorem test_drw_collisions :
    runs { State.stored (launch.setPixel 0 0 true) [(0x300, 0x80#8)] with ir := 0x300#16 } 0xD011
      (fun t => decide (t.fb[0] = 0#64) && t.reg 15 == 0#8) = true ∧
    runs { State.stored ((State.regs launch [(15, 3#8), (0, 2#8)]).setPixel 10 2 true) [(0x300, 0x81#8)] with ir := 0x300#16 } 0xDF01
      (fun t => decide (t.fb[2] = 8#64) && t.reg 15 == 1#8) = true := by decide
/-- TK-4. -/
theorem test_ldvdt : runs { launch with dt := 9#8 } 0xFF07 (fun t => t.reg 15 == 9#8 && t.dt == 9#8) = true := by decide
/-- TK-10. -/
theorem test_ldk : runs { launch with dt := 2#8 } 0xF30A
    (fun t => decide (t.run = .waitKey 3) && t.pc == 0x202#16 && t.dt == 2#8) = true := by decide
/-- TK-3. -/
theorem test_lddt : runs (State.regs launch [(15, 3#8)]) 0xFF15 (fun t => t.dt == 3#8) = true := by decide
/-- CF-23. -/
theorem test_haltSentinel : runs { State.regs launch [(3, 9#8)] with dt := 4#8 } 0x0000
    (fun t => decide (t.run = .halted .sentinel) && t.pc == 0x202#16 && t.reg 3 == 9#8 && t.dt == 4#8) = true := by decide

/-! ## Faults of the cycle, and events -/

/-- DEC-1. -/
theorem test_decode_error : runs launch 0x00EE
    (fun t => decide (t.run = .halted (.decodeError 0x00EE#16 0x200)) && t.pc == 0x202#16) = true := by decide
/-- CF-19: the second byte would lie at 4096. -/
theorem test_fetch_fault : nextIs (step { State.stored launch [(0xFFF, 0x60#8)] with pc := 0xFFF#16 })
    (fun t => decide (t.run = .halted (.executionFault 0xFFF)) && t.pc == 0xFFF#16) = true := by decide
/-- TK-6 and TK-9. -/
theorem test_tick : nextIs (step (State.facing launch .tick)) (fun t => t.dt == 0#8) = true ∧
    nextIs (step (State.facing { launch with dt := 255#8 } .tick)) (fun t => t.dt == 254#8 && t.pc == 0x200#16) = true := by
  decide
/-- TK-13's key. -/
theorem test_key : nextIs (step (State.facing { launch with run := .waitKey 3 } (.key 0xB#4)))
    (fun t => t.reg 3 == 0xB#8 && decide (t.run = .running)) = true := by decide
/-- R33: under `aliased` a load of byte 4 + k sets Vk and lists no cell; the bytes 2 and 3 are I, high byte first. -/
theorem test_load_of_a_view : nextIs (step (State.facing (State.aliased State.reset) (.load 0x013#12 7#8)))
    (fun t => t.reg 15 == 7#8 && decide (t.bytes = [])) = true ∧
    nextIs (step (State.facing (State.aliased State.reset) (.load 0x002#12 7#8))) (fun t => t.ir == 0x700#16) = true := by decide
/-- R247 and U12: a second tick of a slice is refused, by name. -/
theorem test_second_tick : step (State.facing { launch with env := { launch.env with ticked := true } } .tick)
    = .refused .secondTickInSlice := rfl
/-- R208, D19: the slice's `Tick`, `FbRead`, `Key` or `Quit`, `Cycle` come in that order however they are listed; the nominal schedule's
`Tick` comes before a listed read; a `Reset` is taken where it stands. -/
theorem test_order_within_a_slice :
    let s (p : Pacing) (l : List Event) : State := { launch with env := { launch.env with pacing := p, pending := l } }
    (s .cyclesOnly [.key 1#4, .fbRead 0 0, .tick, .cycle]).nextEvent = some .tick ∧
      (s .cyclesOnly [.quit, .fbRead 0 0, .cycle]).nextEvent = some (.fbRead 0 0) ∧
      (s .cyclesOnly [.fbRead 0 0, .cycle, .tick]).nextEvent = some (.fbRead 0 0) ∧
      (s .nominal [.fbRead 0 0]).nextEvent = some .tick ∧ (s .nominal [.reset, .tick]).nextEvent = some .reset ∧
      (s .nominal [.cycle]).nextEvent = some .cycle := by decide
/-- Memory is canonical: storing 0 unlists the cell. -/
theorem test_memory_is_canonical :
    (State.stored State.reset [(5, 1#8), (3, 2#8), (5, 0#8)]).bytes = [(3, 2#8)] ∧ Memory.wf [(3, 2#8), (5, 1#8)] = true ∧
    Memory.wf [(3, 0#8)] = false ∧ Memory.wf [(5, 1#8), (3, 2#8)] = false ∧ Memory.wf [(4096, 1#8)] = false := by decide

/-! ## A word placed at reset runs first, and where `pc` shows in memory it is placed at the origin -/

theorem test_placed_at_reset : runs State.reset 0x6AFF (fun t => t.reg 10 == 0xFF#8 && t.pc == 0x202#16) = true := by decide
theorem test_placed_beside_the_view : runs { State.aliased launch with pc := 19#16 } 0x6AFF
    (fun t => t.reg 10 == 0xFF#8 && t.pc == 0x202#16) = true := by decide

/-! ## Witnesses: for every obligation with hypotheses, states and operands that meet them -/

theorem witness_ResetRebuildsTheMachine :
    (State.facing { State.regs launch [(7, 7#8)] with run := .halted .sentinel } .reset).nextEvent = some .reset := by decide

theorem witness_StartEntersAtTheOrigin :
    (State.facing State.reset .start).nextEvent = some .start ∧ (State.facing State.reset .start).run = .loading := by decide

/-- In Loading at both ends of memory, in Loading on both sides of the view's end, and in Running. -/
theorem witness_LoadWritesOneByte :
    let s0 := State.facing State.reset (.load 0xFFF#12 9#8)
    let s1 := State.facing (State.aliased State.reset) (.load 0x013#12 9#8)
    let s2 := State.facing (State.aliased State.reset) (.load 0x014#12 9#8)
    let s3 := State.facing launch (.load 0x000#12 9#8)
    (s0.nextEvent = some (.load 0xFFF#12 9#8) ∧ Memory.wf s0.bytes = true ∧ s0.run = .loading ∧ s0.isView 0xFFF = false) ∧
    (s1.nextEvent = some (.load 0x013#12 9#8) ∧ Memory.wf s1.bytes = true ∧ s1.run = .loading ∧ s1.isView 0x013 = true) ∧
    (s2.nextEvent = some (.load 0x014#12 9#8) ∧ Memory.wf s2.bytes = true ∧ s2.run = .loading ∧ s2.isView 0x014 = false) ∧
    (s3.nextEvent = some (.load 0x000#12 9#8) ∧ Memory.wf s3.bytes = true ∧ s3.run ≠ .loading) := by decide

theorem witness_LoaderWordReadsBackBigEndian :
    Memory.wf (State.stored launch [(0x300, 1#8)]).bytes = true ∧ 4094 + 1 < 4096 ∧ 0 + 1 < 4096 := by decide

/-- Two loads to one address among them. -/
theorem witness_LaunchStateIsTheImage :
    let loads : List (Addr12 × Byte) := [(0x200#12, 1#8), (0xFFF#12, 2#8), (0x200#12, 3#8)]
    let s : State := { launch with env := { launch.env with pending :=
      .reset :: (loads.map fun l => Event.load l.1 l.2) ++ .start :: [.cycle] } }
    s.env.regAlias = .separate ∧
      s.env.pending = .reset :: (loads.map fun l => Event.load l.1 l.2) ++ .start :: [.cycle] := ⟨rfl, rfl⟩

/-- The last address a word can be fetched from, and the first it cannot. -/
theorem witness_FetchReadsAWordAndAdvances :
    ({ launch with pc := 0xFFE#16 } : State).pc.toNat + 1 < 4096 ∧ 4096 ≤ ({ launch with pc := 0xFFF#16 } : State).pc.toNat + 1 := by
  decide

theorem witness_StepRunsTheDecodedInstruction :
    let s : State := { State.stored launch [(0xFFE, 0x60#8), (0xFFF, 0x07#8)] with pc := 0xFFE#16 }
    s.nextEvent = some .cycle ∧ s.run = .running ∧ s.pc.toNat + 1 < 4096 ∧
      decode (wordOfBytes (s.readByte s.pc.toNat) (s.readByte (s.pc.toNat + 1))) = some (.ldImm 0 7#8) := by decide

theorem witness_PlacedWordRunsNext :
    Memory.wf (State.aliased launch).bytes = true ∧ decodeTableWord 16 0xD015 = some (.drw 0 1 5) := by decide

/-- A machine whose next step meets the sentinel, with the step's answer. -/
theorem witness_SentinelWordIsTheOnlyNormalEnd :
    launch.run ≠ .halted .sentinel ∧ launch.nextEvent = some .cycle ∧ launch.pc.toNat + 1 < 4096 ∧
      launch.readByte launch.pc.toNat = 0#8 ∧ launch.readByte (launch.pc.toNat + 1) = 0#8 ∧
      nextIs (step launch) (fun t => decide (t.run = .halted .sentinel)) = true := by decide

theorem witness_UnlistedWordHaltsWithDecodeError :
    let s : State := { State.stored launch [(0xFFF, 0xEE#8)] with pc := 0xFFE#16 }
    s.nextEvent = some .cycle ∧ s.run = .running ∧ s.pc.toNat + 1 < 4096 ∧
      0x00EE#16 = wordOfBytes (s.readByte s.pc.toNat) (s.readByte (s.pc.toNat + 1)) ∧ 0x00EE#16 ≠ 0#16 ∧
      (∀ r ∈ opRows, r.hits 0x00EE#16 = false) := by decide

theorem witness_FetchOutOfRangeHalts :
    let s : State := { launch with pc := 0xFFF#16 }
    s.nextEvent = some .cycle ∧ s.run = .running ∧ 4096 ≤ s.pc.toNat + 1 := by decide

/-- Each form with its test true and false, and the last word that can be skipped and the first that cannot. -/
theorem witness_SkipsMoveTwoMoreWhenTheTestHolds :
    let s : State := { State.regs launch [(1, 5#8), (2, 5#8)] with pc := 0xFFE#16 }
    let u : State := { s with pc := 0xFFF#16 }
    (s.reg 1 = 5#8 ∧ ¬ s.reg 1 = 6#8) ∧ (s.reg 1 ≠ 6#8 ∧ ¬ s.reg 1 ≠ 5#8) ∧ (s.reg 1 = s.reg 2 ∧ ¬ s.reg 1 = s.reg 3) ∧
      s.pc.toNat + 1 < 4096 ∧ u.reg 1 = 5#8 ∧ 4096 ≤ u.pc.toNat + 1 := by decide

/-- The clause on Vx, at both ends of the names it is about. -/
theorem witness_ArithmeticDestinations : (0 : Reg) ≠ 15 ∧ (14 : Reg) ≠ 15 := by decide

/-- Fifteen rows ending at the last byte; and no row at all with I anywhere. -/
theorem witness_DrwXorsEachSpriteBitOnce :
    15 < 16 ∧ ({ launch with ir := 0xFF1#16 } : State).ir.toNat + 15 ≤ 4096 ∧ (0 : Nat) < 16 ∧ (0 = 0 ∨ 0xFFFF + 0 ≤ 4096) := by
  decide

theorem witness_DrwFlagIsTheLastPixel :
    (0 : Nat) < 16 ∧ 1 < 16 ∧ 0 < 1 ∧ ({ launch with ir := 0xFFF#16 } : State).ir.toNat + 1 ≤ 4096 := by decide

/-- Row 1 out of range, and row 0 itself. -/
theorem witness_DrwFaultsAtTheFirstRowOutOfRange :
    (2 < 16 ∧ 0 < 2 ∧ 4096 < ({ launch with ir := 0xFFF#16 } : State).ir.toNat + 2) ∧
      (1 < 16 ∧ 0 < 1 ∧ 4096 < ({ launch with ir := 0x1000#16 } : State).ir.toNat + 1) := by decide

theorem witness_DrawingTwiceRestoresTheFramebuffer :
    let s : State := { State.stored launch [(0x300, 0x81#8)] with ir := 0x300#16 }
    (∀ i, i < 1 → s.isView (s.ir.toNat + i) = false) ∧ s.ir.toNat + 1 ≤ 4096 ∧
      ∃ t u : State, exec (.drw 0 1 1) s = .next t ∧ exec (.drw 0 1 1) t = .next u :=
  ⟨by decide, by decide, _, _, rfl, rfl⟩

/-- In WaitKey and in Running. -/
theorem witness_KeyEndsTheWait :
    (State.facing { launch with run := .waitKey 15 } (.key 0xF#4)).nextEvent = some (.key 0xF#4) ∧
      (State.facing { launch with run := .waitKey 15 } (.key 0xF#4)).run = .waitKey 15 ∧
      (State.facing launch (.key 0#4)).nextEvent = some (.key 0#4) ∧ ∀ r, (State.facing launch (.key 0#4)).run ≠ .waitKey r := by
  decide

/-- In each of the four run states. -/
theorem witness_TickCountsDownToZero :
    let s (r : RunState) : State := State.facing { launch with run := r, dt := 1#8 } .tick
    ∀ r ∈ [RunState.running, .waitKey 0, .loading, .halted .sentinel],
      (s r).nextEvent = some .tick ∧ ((s r).run = .running → (s r).env.ticked = false) := by decide

theorem witness_TicksDuringAWaitAddUp :
    let s : State := { launch with run := .waitKey 3, dt := 2#8, env := { launch.env with pending := [.tick, .tick, .tick, .key 1#4] } }
    s.run = .waitKey 3 ∧ s.env.pending = List.replicate 3 .tick ++ [.key 1#4] := by decide

theorem witness_ReadersChangeNothing :
    (State.facing launch .status).nextEvent = some .status ∧
      (State.facing launch (.fbRead 63 31)).nextEvent = some (.fbRead 63 31) := by decide

/-- Not halted, and halted for each of the three reasons. -/
theorem witness_StatusShowsTheHalt :
    (∀ z, launch.run ≠ .halted z) ∧ ({ launch with run := .halted .sentinel } : State).run = .halted .sentinel ∧
      ({ launch with run := .halted (.decodeError 0xEE#16 0x200) } : State).run = .halted (.decodeError 0xEE#16 0x200) ∧
      ({ launch with run := .halted (.executionFault 4096) } : State).run = .halted (.executionFault 4096) :=
  ⟨(fun _ h => nomatch h), rfl, rfl, rfl⟩

theorem witness_QuitEndsTheEvents : (State.facing launch .quit).nextEvent = some .quit := by decide

theorem witness_OnlyASecondTickIsRefused :
    let s : State := State.facing { launch with env := { launch.env with ticked := true } } .tick
    s.nextEvent = some .tick ∧ s.run = .running ∧ s.env.ticked = true := by decide

theorem witness_NominalScheduleTicksBeforeTheCycle :
    let s : State := { launch with env := State.reset.env }
    s.env.pending = [] ∧ s.env.pacing = .nominal ∧ s.env.ticked = false ∧ s.run = .running := by decide

theorem witness_OutsideNeverDivertsARunningProgram :
    let s : State := State.facing { launch with dt := 3#8 } .tick
    s.nextEvent = some .tick ∧ s.run = .running ∧ ∃ t : State, step s = .next t ∧ t.dt ≠ s.dt :=
  ⟨by decide, by decide, _, rfl, by decide⟩

theorem witness_HaltedIsTerminal :
    let s : State := State.facing { launch with run := .halted (.executionFault 4096) } .start
    s.nextEvent = some .start ∧ s.run = .halted (.executionFault 4096) ∧ Event.start ≠ .reset := by decide

theorem witness_FinishedProgramsStayFinished :
    let s : State := { launch with run := .halted .sentinel, env := State.reset.env }
    s.finished = true ∧ Event.reset ∉ s.env.pending ∧ Event.quit ∉ s.env.pending ∧ s.env.pacing ≠ .stopped := by decide

/-- One event for each clause. -/
theorem witness_EventsOutOfPlaceDoNothing :
    ((State.facing { launch with run := .waitKey 0 } .cycle).nextEvent = some .cycle ∧ RunState.waitKey 0 ≠ .running) ∧
      ((State.facing launch (.key 5#4)).nextEvent = some (.key 5#4) ∧ ∀ r, launch.run ≠ .waitKey r) ∧
      ((State.facing State.reset .tick).nextEvent = some .tick ∧ State.reset.run = .loading) ∧
      ((State.facing launch (.load 0x300#12 1#8)).nextEvent = some (.load 0x300#12 1#8) ∧ launch.run ≠ .loading) ∧
      (State.facing launch .start).nextEvent = some .start := by decide

theorem witness_RunStateFollowsTheTable :
    ∃ t : State, launch.nextEvent = some .cycle ∧ step launch = .next t ∧ t.run = .halted .sentinel := ⟨_, rfl, rfl, rfl⟩

/-- A jump and a taken skip. -/
theorem witness_OnlyControlFlowWritesThePc :
    (∃ t : State, exec (.jp 0x300#12) launch = .next t ∧ t.pc ≠ launch.pc) ∧
      ∃ t : State, exec (.seImm 0 0#8) launch = .next t ∧ t.pc.toNat = launch.pc.toNat + 2 :=
  ⟨⟨_, rfl, by decide⟩, ⟨_, rfl, by decide⟩⟩

/-- VF as a destination, and VF as a flag. -/
theorem witness_OnlyFlagWritersTouchVF :
    (∃ t : State, exec (.ldImm 15 9#8) launch = .next t ∧ t.reg 15 ≠ launch.reg 15) ∧
      ∃ t : State, exec (.sub 0 1) launch = .next t ∧ t.reg 15 ≠ launch.reg 15 :=
  ⟨⟨_, rfl, by decide⟩, ⟨_, rfl, by decide⟩⟩

/-- I, the timer and the framebuffer each changed by a writer of theirs. -/
theorem witness_EachPieceOfStateHasItsWriters :
    (∃ t : State, exec (.ldi 5#12) launch = .next t ∧ t.ir ≠ launch.ir) ∧
      (∃ t : State, exec (.lddt 0) (State.regs launch [(0, 1#8)]) = .next t ∧ t.dt ≠ launch.dt) ∧
      ∃ t : State, exec .cls { launch with fb := Vector.replicate 32 5#64 } = .next t ∧ t.fb ≠ Vector.replicate 32 5#64 :=
  ⟨⟨_, rfl, by decide⟩, ⟨_, rfl, by decide⟩, ⟨_, rfl, by decide⟩⟩

theorem witness_MemoryIsFixedAfterStart :
    launch.run ≠ .loading ∧ launch.nextEvent ≠ some .reset ∧ nextIs (step launch) (fun _ => true) = true := by decide

/-- A running machine at the greatest `pc` and `I` of the invariant, which a step does leave. -/
theorem witness_StepKeepsTheInvariant :
    let s : State := { launch with pc := 0x10FE#16, ir := 0xFFF#16 }
    s.Inv ∧ ∃ t : State, step s = .next t :=
  ⟨⟨fun _ => by decide, fun _ => by decide, by decide⟩, _, rfl⟩

theorem witness_DecodeOfEncodeIsTheInstruction : Instr.wellFormed (.drw 15 15 15) = true ∧ Instr.wellFormed (.drw 0 0 0) = true := by
  decide

theorem witness_EncodeOfDecodeIsTheWord : decode 0xDFFF#16 = some (.drw 15 15 15) := by decide

theorem witness_DispatchAgreesWithTheOpcodeMap :
    decodeOp 0x8AB6#16 = some (.shr 10 11) ∧ (∃ r ∈ opRows, r.hits 0x8AB6#16 = true) ∧ decodeOp 0x8AB8#16 = none := by decide

theorem witness_SEDirNeedsAZeroNibble :
    (0x5FF0#16).toNat / 4096 = 5 ∧ (0x5FF0#16).toNat % 16 = 0 ∧ (0x5001#16).toNat / 4096 = 5 ∧ (0x5001#16).toNat % 16 ≠ 0 := by decide

theorem witness_LowBytesAreTheRegistersWhenAliased :
    (State.aliased launch).env.regAlias = .aliased ∧ launch.env.regAlias = .separate ∧ (20 : Nat) ≤ 20 := by decide

/-- A read listed before its slice's `Tick`; and a read under the nominal schedule with no `Tick` and no `Cycle` listed. -/
theorem witness_EventsOfASliceComeInOrder :
    let s : State := { launch with env := { launch.env with pending := [.fbRead 0 0, .tick, .cycle] } }
    let u : State := { launch with env := { State.reset.env with pending := [.fbRead 0 0] } }
    (s.nextEvent = some .tick ∧ endsSlice s.run .tick = false ∧ nextIs (step s) (fun t => t.nextEvent == some (.fbRead 0 0)) = true) ∧
      (u.nextEvent = some .tick ∧ u.env.pacing = .nominal ∧ u.env.ticked = false ∧ Event.tick ∉ u.env.pending ∧
        Event.cycle ∉ u.env.pending) := by decide

theorem witness_AShuffledSliceRunsInOrder :
    let s (l : List Event) : State := { launch with env := { launch.env with pending := l ++ [.cycle] } }
    let u := s [.key 5#4, .fbRead 63 31, .tick]
    let v := s [.quit, .tick]
    (u.run = .running ∧ u.env.ticked = false ∧ [Event.key 5#4, .fbRead 63 31, .tick].Perm [.tick, .fbRead 63 31, .key 5#4]) ∧
      (v.run = .running ∧ v.env.ticked = false ∧ [Event.quit, .tick].Perm [.tick, .quit]) := by decide

end Sys2Proof.Tests
end

namespace Sys2Proof.Machine

/-! # What one instruction does (40_fetch_cycle.md R114)

Every arm of `exec` is one of a few shapes; `exec_effect` says so once, and the claims about all instructions are case analyses over
the shapes. -/

/-- The instructions that name `x` as their destination and write no flag (R140 to R145, R180). -/
def NamesDestination (i : Instr) (x : Reg) : Prop :=
  (∃ nn, i = .ldImm x nn ∨ i = .addImm x nn) ∨
    (∃ y, i = .ldDir x y ∨ i = .or x y ∨ i = .and x y ∨ i = .xor x y) ∨ i = .ldvdt x

/-- The arithmetic instructions that write VF as a flag (R146 to R150). -/
def WritesAluFlag (i : Instr) : Prop :=
  ∃ x y, i = .addDir x y ∨ i = .sub x y ∨ i = .shr x y ∨ i = .subn x y ∨ i = .shl x y

/-- The three conditional skips (R131 to R133). -/
def IsSkip (i : Instr) : Prop :=
  (∃ x nn, i = .seImm x nn ∨ i = .sne x nn) ∨ ∃ x y, i = .seDir x y

/-- The shapes of an instruction's effect on `s`, each with the instructions that have it. -/
inductive Effect (s : State) (i : Instr) : State → Prop
  | setReg (x : Reg) (v : Byte) (hi : NamesDestination i x) : Effect s i (s.setReg x v)
  | setResult (x : Reg) (v : Byte) (f : Bool) (hi : WritesAluFlag i) : Effect s i (s.setResult x v f)
  | skip (c : Bool) (hi : IsSkip i) : Effect s i (s.skipIf c)
  | jump (nnn : Addr12) (hi : i = .jp nnn) : Effect s i { s with pc := zext12 nnn }
  | jumpOff (nnn : Addr12) (hi : i = .jpOff nnn) : Effect s i { s with pc := s.offsetTarget nnn }
  | clear (hi : i = .cls) : Effect s i s.clearPixels
  | draw (x y : Reg) (n : Nat) (hi : i = .drw x y n) : Effect s i (drawRows (s.reg x) (s.reg y) s.ir.toNat n 0 s)
  | setIndex (nnn : Addr12) (hi : i = .ldi nnn) : Effect s i { s with ir := zext12 nnn }
  | setTimer (x : Reg) (hi : i = .lddt x) : Effect s i { s with dt := s.reg x }
  | wait (x : Reg) (hi : i = .ldk x) : Effect s i { s with run := .waitKey x }
  | halt (hi : i = .haltSentinel) : Effect s i (s.raise .sentinel)

/-- Every instruction answers a next state, by one of the shapes. -/
theorem exec_effect (i : Instr) (s : State) : ∃ t, exec i s = .next t ∧ Effect s i t := by
  cases i with
  | cls => exact ⟨_, rfl, .clear rfl⟩
  | jp nnn => exact ⟨_, rfl, .jump nnn rfl⟩
  | seImm x nn => exact ⟨_, rfl, .skip _ (.inl ⟨x, nn, .inl rfl⟩)⟩
  | sne x nn => exact ⟨_, rfl, .skip _ (.inl ⟨x, nn, .inr rfl⟩)⟩
  | seDir x y => exact ⟨_, rfl, .skip _ (.inr ⟨x, y, rfl⟩)⟩
  | ldImm x nn => exact ⟨_, rfl, .setReg x _ (.inl ⟨nn, .inl rfl⟩)⟩
  | addImm x nn => exact ⟨_, rfl, .setReg x _ (.inl ⟨nn, .inr rfl⟩)⟩
  | ldDir x y => exact ⟨_, rfl, .setReg x _ (.inr (.inl ⟨y, .inl rfl⟩))⟩
  | or x y => exact ⟨_, rfl, .setReg x _ (.inr (.inl ⟨y, .inr (.inl rfl)⟩))⟩
  | and x y => exact ⟨_, rfl, .setReg x _ (.inr (.inl ⟨y, .inr (.inr (.inl rfl))⟩))⟩
  | xor x y => exact ⟨_, rfl, .setReg x _ (.inr (.inl ⟨y, .inr (.inr (.inr rfl))⟩))⟩
  | addDir x y => exact ⟨_, rfl, .setResult x _ _ ⟨x, y, .inl rfl⟩⟩
  | sub x y => exact ⟨_, rfl, .setResult x _ _ ⟨x, y, .inr (.inl rfl)⟩⟩
  | shr x y => exact ⟨_, rfl, .setResult x _ _ ⟨x, y, .inr (.inr (.inl rfl))⟩⟩
  | subn x y => exact ⟨_, rfl, .setResult x _ _ ⟨x, y, .inr (.inr (.inr (.inl rfl)))⟩⟩
  | shl x y => exact ⟨_, rfl, .setResult x _ _ ⟨x, y, .inr (.inr (.inr (.inr rfl)))⟩⟩
  | ldi nnn => exact ⟨_, rfl, .setIndex nnn rfl⟩
  | jpOff nnn => exact ⟨_, rfl, .jumpOff nnn rfl⟩
  | drw x y n => exact ⟨_, rfl, .draw x y n rfl⟩
  | ldvdt x => exact ⟨_, rfl, .setReg x _ (.inr (.inr rfl))⟩
  | ldk x => exact ⟨_, rfl, .wait x rfl⟩
  | lddt x => exact ⟨_, rfl, .setTimer x rfl⟩
  | haltSentinel => exact ⟨_, rfl, .halt rfl⟩

/-- The inversion form of `exec_effect`. -/
theorem effect_of_exec {i : Instr} {s t : State} (h : exec i s = .next t) : Effect s i t := by
  obtain ⟨u, hu, heff⟩ := exec_effect i s
  rw [h] at hu
  cases hu
  exact heff

/-! ## The parts of an effect -/

/-- What a conditional skip leaves alone: everything but `pc` and, where its read faults, `run`. -/
theorem State.skipIf_rest (s : State) (c : Bool) :
    (s.skipIf c).x = s.x ∧ (s.skipIf c).ir = s.ir ∧ (s.skipIf c).dt = s.dt ∧ (s.skipIf c).bytes = s.bytes ∧
      (s.skipIf c).fb = s.fb ∧ (s.skipIf c).env = s.env := by
  obtain ⟨-, e⟩ | ⟨-, -, e⟩ | ⟨-, -, e⟩ := s.skipIf_cases c <;> rw [e] <;> exact ⟨rfl, rfl, rfl, rfl, rfl, rfl⟩

/-- A skip leaves `pc`, or adds 2 to one whose word is in range (R115). -/
theorem State.skipIf_pc (s : State) (c : Bool) :
    (s.skipIf c).pc = s.pc ∨ (s.pc.toNat + 1 < 4096 ∧ (s.skipIf c).pc.toNat = s.pc.toNat + 2) := by
  obtain ⟨-, e⟩ | ⟨-, hp, e⟩ | ⟨-, -, e⟩ := s.skipIf_cases c
  · exact .inl (by rw [e])
  · exact .inr ⟨hp, by rw [e, State.advance_pc_toNat hp]⟩
  · exact .inl (by rw [e, State.raise_pc])

/-- A skip leaves `run`, or halts the core. -/
theorem State.skipIf_run (s : State) (c : Bool) :
    (s.skipIf c).run = s.run ∨ ∃ z, (s.skipIf c).run = .halted z := by
  obtain ⟨-, e⟩ | ⟨-, -, e⟩ | ⟨-, -, e⟩ := s.skipIf_cases c
  · exact .inl (by rw [e])
  · exact .inl (by rw [e, State.advance_run])
  · exact .inr ⟨_, by rw [e, State.raise_run]⟩

/-- Rows drawn leave `run`, or halt the core (R165). -/
theorem drawRows_run_or_halted (vx vy : Byte) (base left i : Nat) (s : State) :
    (drawRows vx vy base left i s).run = s.run ∨ ∃ z, (drawRows vx vy base left i s).run = .halted z := by
  induction left generalizing i s with
  | zero => exact .inl rfl
  | succ left ih =>
    rcases Nat.lt_or_ge (base + i) 4096 with hr | hr
    · rw [drawRows_succ hr, ← drawRow_run vx vy i (s.readByte (base + i)) s]
      exact ih _ _
    · exact .inr ⟨_, by rw [drawRows_fault hr, State.raise_run]⟩

/-- Rows drawn leave VF, or write a flag to it (R164). -/
theorem drawRows_vf (vx vy : Byte) (base left i : Nat) (s : State) :
    (drawRows vx vy base left i s).reg VF = s.reg VF ∨ ∃ f, (drawRows vx vy base left i s).reg VF = flagByte f := by
  induction left generalizing i s with
  | zero => exact .inl rfl
  | succ left ih =>
    rcases Nat.lt_or_ge (base + i) 4096 with hr | hr
    · right
      rw [drawRows_succ hr]
      obtain h | h := ih (i + 1) (drawRow vx vy i (s.readByte (base + i)) s)
      · exact ⟨_, h.trans (drawRow_vf ..)⟩
      · exact h
    · exact .inl (by rw [drawRows_fault hr, State.reg_raise])

theorem flagByte_eq_zero_or_one (f : Bool) : flagByte f = 0#8 ∨ flagByte f = 1#8 := by
  cases f
  · exact .inl rfl
  · exact .inr rfl

theorem zext12_toNat_le (nnn : Addr12) : (zext12 nnn).toNat ≤ 0x0FFF := by
  have h := nnn.isLt
  simp only [zext12, BitVec.toNat_setWidth]
  omega

/-- The sum of JPOff is at most 0xFF + 0xFFF, which does not wrap (R134, R24). -/
theorem State.offsetTarget_toNat_le (s : State) (nnn : Addr12) : (s.offsetTarget nnn).toNat ≤ 0x10FE := by
  have ha := zext12_toNat_le nnn
  have hb := s.offset.isLt
  simp only [State.offsetTarget, zext8, BitVec.toNat_add, BitVec.toNat_setWidth]
  omega

/-! ## What every effect keeps -/

/-- No instruction writes a memory cell or the open parameters (R27, R53). -/
theorem Effect.bytes_env {s t : State} {i : Instr} (h : Effect s i t) : t.bytes = s.bytes ∧ t.env = s.env := by
  cases h with
  | skip c =>
    obtain ⟨-, -, -, hbytes, -, henv⟩ := s.skipIf_rest c
    exact ⟨hbytes, henv⟩
  | draw x y n =>
    have hf := drawRows_frame (s.reg x) (s.reg y) s.ir.toNat n 0 s
    exact ⟨hf.bytes, hf.env⟩
  | _ => exact ⟨rfl, rfl⟩

/-- I is written by LDI alone, with its operand (R25, R161). -/
theorem Effect.ir {s t : State} {i : Instr} (h : Effect s i t) :
    t.ir = s.ir ∨ ∃ nnn, i = .ldi nnn ∧ t.ir = zext12 nnn := by
  cases h with
  | skip c =>
    obtain ⟨-, hir, -⟩ := s.skipIf_rest c
    exact .inl hir
  | draw x y n => exact .inl (drawRows_frame ..).ir
  | setIndex nnn hi => exact .inr ⟨nnn, hi, rfl⟩
  | _ => exact .inl rfl

/-- The timer is written by LDDT alone (R26, R183). -/
theorem Effect.dt {s t : State} {i : Instr} (h : Effect s i t) : t.dt = s.dt ∨ ∃ x, i = .lddt x := by
  cases h with
  | skip c =>
    obtain ⟨-, -, hdt, -⟩ := s.skipIf_rest c
    exact .inl hdt
  | draw x y n => exact .inl (drawRows_frame ..).dt
  | setTimer x hi => exact .inr ⟨x, hi⟩
  | _ => exact .inl rfl

/-- The framebuffer is written by CLS and by DRW of some rows alone (R28, R160, R167). -/
theorem Effect.fb {s t : State} {i : Instr} (h : Effect s i t) :
    t.fb = s.fb ∨ i = .cls ∨ ∃ x y n, i = .drw x y n ∧ 0 < n := by
  cases h with
  | skip c =>
    obtain ⟨-, -, -, -, hfb, -⟩ := s.skipIf_rest c
    exact .inl hfb
  | clear hi => exact .inr (.inl hi)
  | draw x y n hi =>
    cases n with
    | zero => exact .inl rfl
    | succ n => exact .inr (.inr ⟨x, y, n + 1, hi, n.succ_pos⟩)
  | _ => exact .inl rfl

/-- VF is left, or is the named destination, or receives a flag (R22). -/
theorem Effect.vf {s t : State} {i : Instr} (h : Effect s i t) :
    t.reg VF = s.reg VF ∨ NamesDestination i VF ∨
      ((WritesAluFlag i ∨ ∃ x y n, i = .drw x y n ∧ 0 < n) ∧ ∃ f, t.reg VF = flagByte f) := by
  cases h with
  | setReg x v hi =>
    by_cases hx : VF = x
    · exact .inr (.inl (hx ▸ hi))
    · exact .inl (by rw [State.reg_setReg, if_neg hx])
  | setResult x v f hi => exact .inr (.inr ⟨.inl hi, f, by rw [State.reg_setResult, if_pos rfl]⟩)
  | skip c =>
    obtain ⟨hx, -⟩ := s.skipIf_rest c
    exact .inl (State.reg_congr hx VF)
  | draw x y n hi =>
    cases n with
    | zero => exact .inl rfl
    | succ n =>
      obtain hvf | hvf := drawRows_vf (s.reg x) (s.reg y) s.ir.toNat (n + 1) 0 s
      · exact .inl hvf
      · exact .inr (.inr ⟨.inr ⟨x, y, n + 1, hi, n.succ_pos⟩, hvf⟩)
  | _ => exact .inl rfl

/-- An instruction leaves `run`, or waits, or halts (R117). -/
theorem Effect.run {s t : State} {i : Instr} (h : Effect s i t) :
    t.run = s.run ∨ (∃ x, t.run = .waitKey x) ∨ ∃ z, t.run = .halted z := by
  cases h with
  | skip c => exact (s.skipIf_run c).imp_right .inr
  | draw x y n => exact (drawRows_run_or_halted ..).imp_right .inr
  | wait x => exact .inr (.inl ⟨x, rfl⟩)
  | halt => exact .inr (.inr ⟨_, rfl⟩)
  | _ => exact .inl rfl

/-- No instruction goes back to Loading. -/
theorem Effect.run_ne_loading {s t : State} {i : Instr} (h : Effect s i t) (hr : s.run ≠ .loading) :
    t.run ≠ .loading := by
  obtain e | ⟨x, e⟩ | ⟨z, e⟩ := h.run <;> rw [e]
  · exact hr
  · exact RunState.noConfusion
  · exact RunState.noConfusion

/-- The bound of R34 on `pc`: a jump meets it by its operands, a skip adds 2 only below 4095. -/
theorem Effect.pc_toNat_le {s t : State} {i : Instr} (h : Effect s i t) (hp : s.pc.toNat ≤ 0x10FE) :
    t.pc.toNat ≤ 0x10FE := by
  cases h with
  | skip c =>
    obtain e | ⟨hlt, e⟩ := s.skipIf_pc c
    · rw [e]; exact hp
    · omega
  | jump nnn => exact (zext12_toNat_le nnn).trans (by decide)
  | jumpOff nnn => exact s.offsetTarget_toNat_le nnn
  | draw x y n => rw [(drawRows_frame ..).pc]; exact hp
  | _ => exact hp

/-! # The claims about all instructions -/

/-- Settles O44, by the shapes of an effect: a register write reaches VF only as the destination, and the rest write a flag. -/
theorem onlyFlagWritersTouchVF : Obligations.OnlyFlagWritersTouchVF := by
  intro i s t h hne
  obtain e | hdest | ⟨hi, f, e⟩ := (effect_of_exec h).vf
  · exact absurd e hne
  · exact .inl hdest
  · exact .inr ⟨hi, by rw [e]; exact flagByte_eq_zero_or_one f⟩

/-- Settles O45, from what every effect keeps, field by field. -/
theorem eachPieceOfStateHasItsWriters : Obligations.EachPieceOfStateHasItsWriters := by
  intro i s t h
  have heff := effect_of_exec h
  obtain ⟨hbytes, henv⟩ := heff.bytes_env
  refine ⟨.of_eq hbytes (by rw [henv]), henv, fun hne => ?_, heff.dt.resolve_left, heff.fb.resolve_left⟩
  obtain ⟨nnn, hi, -⟩ := heff.ir.resolve_left hne
  exact ⟨nnn, hi⟩

/-! # What one event does (40_fetch_cycle.md R117, R118) -/

/-- Everything a `Cycle` can do: nothing outside Running; in Running a fetch fault, or after an in-range fetch a `DecodeError` or an
instruction's effect. -/
theorem cycle_next {s t : State} (h : cycle s = .next t) :
    t = s ∨ (s.run = .running ∧ ((∃ z, t = s.raise z) ∨
      (s.pc.toNat + 1 < 4096 ∧ ((∃ z, t = s.advance.raise z) ∨ ∃ i, Effect s.advance i t)))) := by
  by_cases hr : s.run = .running
  · refine .inr ⟨hr, ?_⟩
    obtain ⟨-, e⟩ | ⟨hp, ⟨-, e⟩ | ⟨i, -, e⟩⟩ := cycle_cases hr <;> rw [e] at h
    · cases h; exact .inl ⟨_, rfl⟩
    · cases h; exact .inr ⟨hp, .inl ⟨_, rfl⟩⟩
    · exact .inr ⟨hp, .inr ⟨i, effect_of_exec h⟩⟩
  · rw [cycle_of_not_running hr] at h
    cases h
    exact .inl rfl

/-- `Load` writes one byte in Loading and does nothing elsewhere (R241, D15); its address is in range by type. -/
theorem State.onLoad_eq (s : State) (a : Addr12) (v : Byte) :
    s.onLoad a v = if s.run = .loading then s.writeByte a.toNat v else s := by
  have ha : ¬ a.toNat ≥ Config.memSize := Nat.not_le.mpr a.isLt
  unfold State.onLoad State.memWrite8
  cases hr : s.run <;> simp [ha]

/-- `Start` enters at the origin in Loading and does nothing elsewhere (R242, D15). -/
theorem State.onStart_eq (s : State) :
    s.onStart = if s.run = .loading then { s with pc := Config.origin, run := .running } else s := by
  unfold State.onStart
  cases hr : s.run <;> simp

/-- `Tick` does nothing, or counts the timer down (R214). -/
theorem State.onTick_cases (s : State) : s.onTick = s ∨ s.onTick = { s with dt := countDown s.dt } := by
  unfold State.onTick
  split
  · exact .inl rfl
  · exact .inr rfl
  · exact .inr rfl
  · exact .inl rfl

/-- `Key` does nothing, or ends a wait: a register is written and the core runs (R182). -/
theorem State.onKey_cases (s : State) (k : BitVec 4) :
    s.onKey k = s ∨ ∃ r, s.run = .waitKey r ∧ s.onKey k = { s.setReg r (zext4 k) with run := .running } := by
  unfold State.onKey
  cases hr : s.run with
  | waitKey r => exact .inr ⟨r, rfl, rfl⟩
  | loading => exact .inl rfl
  | running => exact .inl rfl
  | halted z => exact .inl rfl

/-- Outside Loading no event but `Reset` writes a memory cell or the open parameters, or goes back to Loading (R63, R117). -/
theorem applyEvent_outside_loading {ev : Event} {s t : State} (hr : s.run ≠ .loading) (hev : ev ≠ .reset)
    (h : applyEvent ev s = .next t) : t.bytes = s.bytes ∧ t.env = s.env ∧ t.run ≠ .loading := by
  cases ev with
  | reset => exact absurd rfl hev
  | load a v =>
    cases h
    rw [State.onLoad_eq, if_neg hr]
    exact ⟨rfl, rfl, hr⟩
  | start =>
    cases h
    rw [State.onStart_eq, if_neg hr]
    exact ⟨rfl, rfl, hr⟩
  | cycle =>
    obtain rfl | ⟨-, ⟨z, rfl⟩ | ⟨-, ⟨z, rfl⟩ | ⟨i, heff⟩⟩⟩ := cycle_next h
    · exact ⟨rfl, rfl, hr⟩
    · exact ⟨rfl, rfl, RunState.noConfusion⟩
    · exact ⟨rfl, rfl, RunState.noConfusion⟩
    · obtain ⟨hbytes, henv⟩ := heff.bytes_env
      exact ⟨hbytes, henv, heff.run_ne_loading hr⟩
  | tick =>
    cases h
    obtain e | e := s.onTick_cases <;> rw [e] <;> exact ⟨rfl, rfl, hr⟩
  | key k =>
    cases h
    obtain e | ⟨r, -, e⟩ := s.onKey_cases k <;> rw [e]
    · exact ⟨rfl, rfl, hr⟩
    · exact ⟨rfl, rfl, RunState.noConfusion⟩
  | fbRead x y => cases h; exact ⟨rfl, rfl, hr⟩
  | status => cases h; exact ⟨rfl, rfl, hr⟩
  | quit => cases h; exact ⟨rfl, rfl, hr⟩

/-- Settles O46, event by event: only a `Load` in Loading and a `Reset` write cells. -/
theorem memoryIsFixedAfterStart : Obligations.MemoryIsFixedAfterStart := by
  intro s t hr hnext h
  obtain ⟨ev, hev, -, happly⟩ := step_next h
  have hne : ev ≠ .reset := fun e => hnext (e ▸ hev)
  obtain ⟨hbytes, henv, hrun⟩ := applyEvent_outside_loading (s := s.take ev) hr hne happly
  have hmem : SameMemory s t := .of_eq hbytes (by rw [henv]; simp)
  exact ⟨hbytes, hrun, hmem.2⟩

/-! # The invariant (10_state.md R34) -/

/-- Settles O47: the zeroed machine meets each bound. -/
theorem resetMeetsTheInvariant : Obligations.ResetMeetsTheInvariant where
  pc_bound hr := absurd rfl hr
  ir_bound _ := Nat.zero_le _
  memory := rfl

/-- The invariant speaks of `pc` outside Loading, I, the cells and REG_ALIAS alone. -/
theorem State.Inv.congr {s t : State} (hs : s.Inv) (hpc : t.pc = s.pc) (hir : t.ir = s.ir) (hbytes : t.bytes = s.bytes)
    (henv : t.env.regAlias = s.env.regAlias) (hrun : t.run ≠ .loading → s.run ≠ .loading) : t.Inv where
  pc_bound hr := hpc ▸ hs.pc_bound (hrun hr)
  ir_bound he := hir ▸ hs.ir_bound (henv ▸ he)
  memory := hbytes ▸ hs.memory

theorem State.Inv.take {s : State} (hs : s.Inv) (ev : Event) : (s.take ev).Inv :=
  hs.congr rfl rfl rfl (by simp) id

theorem State.Inv.raise {s : State} (hs : s.Inv) (hr : s.run ≠ .loading) (z : HaltReason) : (s.raise z).Inv :=
  hs.congr rfl rfl rfl rfl fun _ => hr

/-- An in-range fetch leaves `pc` at 4096 at most. -/
theorem State.Inv.advance {s : State} (hs : s.Inv) (hp : s.pc.toNat + 1 < 4096) : s.advance.Inv where
  pc_bound _ := by rw [State.advance_pc_toNat hp]; omega
  ir_bound := hs.ir_bound
  memory := hs.memory

/-- Every instruction keeps the invariant. -/
theorem Effect.inv {s t : State} {i : Instr} (h : Effect s i t) (hs : s.Inv) (hr : s.run ≠ .loading) : t.Inv := by
  obtain ⟨hbytes, henv⟩ := h.bytes_env
  refine ⟨fun _ => h.pc_toNat_le (hs.pc_bound hr), fun he => ?_, hbytes ▸ hs.memory⟩
  obtain e | ⟨nnn, -, e⟩ := h.ir <;> rw [e]
  · exact hs.ir_bound (henv ▸ he)
  · exact zext12_toNat_le nnn

/-- A `Cycle` keeps the invariant (R111). -/
theorem State.Inv.cycle {s t : State} (hs : s.Inv) (h : cycle s = .next t) : t.Inv := by
  obtain rfl | ⟨hr, hcase⟩ := cycle_next h
  · exact hs
  have hne : s.run ≠ .loading := by rw [hr]; exact RunState.noConfusion
  obtain ⟨z, rfl⟩ | ⟨hp, ⟨z, rfl⟩ | ⟨i, heff⟩⟩ := hcase
  · exact hs.raise hne z
  · exact (hs.advance hp).raise hne z
  · exact heff.inv (hs.advance hp) hne

/-- `Reset` makes `pc` and I 0 and empties memory, whatever REG_ALIAS is (R240). -/
theorem State.inv_onReset (s : State) : s.onReset.Inv where
  pc_bound hr := absurd rfl hr
  ir_bound _ := Nat.zero_le _
  memory := rfl

/-- Under `separate` no byte is a view, so a byte write leaves I (R33). -/
theorem State.writeByte_ir_of_separate {s : State} (he : s.env.regAlias = .separate) (a : Nat) (v : Byte) :
    (s.writeByte a v).ir = s.ir := by
  have hview : s.isView a = false := by simp [State.isView, he]
  rw [State.writeByte_plain hview]

/-- A `Load` keeps the invariant: in Loading it bounds no `pc`, and a cell written stays canonical (R241). -/
theorem State.Inv.onLoad {s : State} (hs : s.Inv) (a : Addr12) (v : Byte) : (s.onLoad a v).Inv := by
  rw [State.onLoad_eq]
  split
  · next hr =>
    obtain ⟨-, -, hrun, henv⟩ := s.writeByte_rest a.toNat v
    refine ⟨fun h => absurd (hrun.trans hr) h, fun he => ?_, State.wf_writeByte hs.memory a.isLt v⟩
    rw [henv] at he
    rw [State.writeByte_ir_of_separate he]
    exact hs.ir_bound he
  · exact hs

/-- `Start` puts the origin in `pc`, whatever the loader left there (R242). -/
theorem State.Inv.onStart {s : State} (hs : s.Inv) : s.onStart.Inv := by
  rw [State.onStart_eq]
  split
  · have horigin : Config.origin.toNat ≤ 0x10FE := by decide
    exact ⟨fun _ => horigin, hs.ir_bound, hs.memory⟩
  · exact hs

theorem State.Inv.onTick {s : State} (hs : s.Inv) : s.onTick.Inv := by
  obtain e | e := s.onTick_cases <;> rw [e]
  · exact hs
  · exact hs.congr rfl rfl rfl rfl id

theorem State.Inv.onKey {s : State} (hs : s.Inv) (k : BitVec 4) : (s.onKey k).Inv := by
  obtain e | ⟨r, hr, e⟩ := s.onKey_cases k <;> rw [e]
  · exact hs
  · exact hs.congr rfl rfl rfl rfl fun _ => by rw [hr]; exact RunState.noConfusion

/-- Every event keeps the invariant. -/
theorem State.Inv.applyEvent {ev : Event} {s t : State} (hs : s.Inv) (h : applyEvent ev s = .next t) : t.Inv := by
  cases ev with
  | reset => cases h; exact s.inv_onReset
  | load a v => cases h; exact hs.onLoad a v
  | start => cases h; exact hs.onStart
  | cycle => exact hs.cycle h
  | tick => cases h; exact hs.onTick
  | key k => cases h; exact hs.onKey k
  | fbRead x y => cases h; exact hs
  | status => cases h; exact hs
  | quit => cases h; exact hs

/-- Settles O48: a step takes its event from the schedule and applies it, and both keep the invariant. -/
theorem stepKeepsTheInvariant : Obligations.StepKeepsTheInvariant := by
  intro s t hs h
  obtain ⟨ev, -, -, happly⟩ := step_next h
  exact (hs.take ev).applyEvent happly

/-! # The register view (10_state.md R33) -/

theorem highByte_toNat (w : Word) : (highByte w).toNat = w.toNat / 256 := by
  have h := w.isLt
  simp only [highByte, BitVec.extractLsb'_toNat, Nat.shiftRight_eq_div_pow]
  omega

theorem lowByte_toNat (w : Word) : (lowByte w).toNat = w.toNat % 256 := by
  simp [lowByte, BitVec.extractLsb'_toNat]

/-- Under `aliased` a byte below 20 reads as its view. -/
theorem State.readByte_of_aliased {s : State} (he : s.env.regAlias = .aliased) {a : Nat} (ha : a < 20) :
    s.readByte a = s.viewByte a :=
  if_pos ((s.isView_iff a).mpr ⟨he, ha⟩)

theorem State.viewByte_reg (s : State) (r : Reg) : s.viewByte (4 + r.val) = s.reg r := by
  rw [Nat.add_comm]
  show s.reg (Fin.ofNat 16 r.val) = s.reg r
  rw [Fin.ofNat_val_eq_self]

/-- Settles O54: below 20 an aliased read is the view, and everywhere else a read is the cell. -/
theorem lowBytesAreTheRegistersWhenAliased : Obligations.LowBytesAreTheRegistersWhenAliased := by
  refine fun s => ⟨fun he => ⟨?_, ?_, ?_, ?_, fun r => ?_, fun a ha => ?_⟩, fun he a => ?_⟩
  · rw [State.readByte_of_aliased he (by decide)]; exact highByte_toNat s.pc
  · rw [State.readByte_of_aliased he (by decide)]; exact lowByte_toNat s.pc
  · rw [State.readByte_of_aliased he (by decide)]; exact highByte_toNat s.ir
  · rw [State.readByte_of_aliased he (by decide)]; exact lowByte_toNat s.ir
  · rw [State.readByte_of_aliased he (by omega), State.viewByte_reg]
  · exact State.readByte_of_not_view (by simp [State.isView, ha])
  · exact State.readByte_of_not_view (by simp [State.isView, he])

end Sys2Proof.Machine

namespace Sys2Proof.Machine

/-! # 16-bit memory accesses (20_memory.md R51 to R53) -/

/-- Everything a 16-bit write can do: two byte writes, the high byte at the lower address, or a fault as a whole (R53). -/
theorem State.memWrite16_eq (s : State) (a : Nat) (v : Word) :
    (a + 1 < 4096 ∧ s.memWrite16 a v = .ok ((s.writeByte a (highByte v)).writeByte (a + 1) (lowByte v))) ∨
      (4096 ≤ a + 1 ∧ s.memWrite16 a v = .error (.executionFault a)) := by
  unfold State.memWrite16
  split
  · next h => exact .inr ⟨h, rfl⟩
  · next h => exact .inl ⟨Nat.lt_of_not_le h, rfl⟩

/-- A byte read after two byte writes, of which the later wins. -/
theorem State.readByte_writeByte_writeByte {s : State} (h : Memory.wf s.bytes = true) {a : Nat} (ha : a < Config.memSize)
    (v : Byte) (a' : Nat) (v' : Byte) (b : Nat) :
    ((s.writeByte a v).writeByte a' v').readByte b = if b = a' then v' else if b = a then v else s.readByte b := by
  rw [State.readByte_writeByte (State.wf_writeByte h ha v), State.readByte_writeByte h]

/-- Settles O4: the two byte writes meet two different bytes, and the word of its own halves is the word. -/
theorem loaderWordReadsBackBigEndian : Obligations.LoaderWordReadsBackBigEndian := by
  intro s a v hwf ha
  obtain ⟨-, hwrite⟩ | ⟨hge, -⟩ := s.memWrite16_eq a v
  case inr => omega
  have hread := State.readByte_writeByte_writeByte hwf (Nat.lt_of_succ_lt ha) (highByte v) (a + 1) (lowByte v)
  generalize (s.writeByte a (highByte v)).writeByte (a + 1) (lowByte v) = t at hwrite hread
  have hhigh : t.readByte a = highByte v := by rw [hread a, if_neg (Nat.ne_of_lt a.lt_succ_self), if_pos rfl]
  have hlow : t.readByte (a + 1) = lowByte v := by rw [hread (a + 1), if_pos rfl]
  refine ⟨t, hwrite, ?_, ?_, ?_, fun b hb hb' => ?_⟩
  · rw [hhigh]; exact highByte_toNat v
  · rw [hlow]; exact lowByte_toNat v
  · obtain ⟨-, e⟩ | ⟨hge, -⟩ := t.memRead16_eq a
    · rw [e, hhigh, hlow, wordOfBytes_highByte_lowByte]
    · omega
  · rw [hread b, if_neg hb', if_neg hb]

/-! # What the host reads (20_memory.md R65, 60_exceptions.md R205) -/

/-- `Status` shows the run state and what the halt recorded, and nothing else. -/
theorem State.status_congr {s t : State} (h : t.run = s.run) : t.status = s.status := by
  unfold State.status
  rw [h]

/-- A block that is the same looks the same to the host: its status, and every cell. -/
theorem SameBlock.host_view {s t : State} (h : SameBlock s t) : t.status = s.status ∧ ∀ x y, t.fbRead x y = s.pixel x y :=
  ⟨State.status_congr h.run, fun x y => State.pixel_congr h.fb x y⟩

/-- Settles O33: a reader is taken from the schedule and has no other effect, and the schedule is no part of the block. -/
theorem readersChangeNothing : Obligations.ReadersChangeNothing := by
  intro s ev hnext hev
  have hblock : SameBlock s (s.take ev) := .take s ev
  refine ⟨s.take ev, ?_, hblock, hblock.host_view⟩
  obtain rfl | ⟨x, y, rfl⟩ := hev
  · exact step_of_event hnext Event.noConfusion
  · exact step_of_event hnext Event.noConfusion

end Sys2Proof.Machine

namespace Sys2Proof

/-! # Encoding and decoding (30_encoding.md R80 to R91)

`decode_eq_some_iff` says once what the decoder answers: the well-formed instruction whose word it is handed. -/

/-! ## The fields as parts of a number (R81, R82) -/

theorem nibble1_toNat (w : Word) : (nibble1 w).toNat = w.toNat / 4096 := by
  have h := w.isLt
  simp only [nibble1, BitVec.extractLsb'_toNat, Nat.shiftRight_eq_div_pow]
  omega

theorem nibble4_toNat (w : Word) : (nibble4 w).toNat = w.toNat % 16 := by
  simp [nibble4, BitVec.extractLsb'_toNat]

theorem fieldX_val (w : Word) : (fieldX w).val = w.toNat / 256 % 16 := by
  simp [fieldX, regOfBits, BitVec.extractLsb'_toNat, Nat.shiftRight_eq_div_pow]

theorem fieldY_val (w : Word) : (fieldY w).val = w.toNat / 16 % 16 := by
  simp [fieldY, regOfBits, BitVec.extractLsb'_toNat, Nat.shiftRight_eq_div_pow]

/-! ## A word is the format of its fields, its opcode known (R83) -/

theorem formatNNN_of_nibble1 {w : Word} {n1 : Nat} (h1 : (nibble1 w).toNat = n1) :
    formatNNN (BitVec.ofNat 4 n1) (fieldNNN w) = w := by
  rw [← h1, BitVec.ofNat_toNat, BitVec.setWidth_eq, formatNNN_fields]

theorem formatXNN_of_nibble1 {w : Word} {n1 : Nat} (h1 : (nibble1 w).toNat = n1) :
    formatXNN (BitVec.ofNat 4 n1) (fieldX w) (fieldNN w) = w := by
  rw [← h1, BitVec.ofNat_toNat, BitVec.setWidth_eq, formatXNN_fields]

theorem formatXNN_of_nibble1_fieldNN {w : Word} {n1 nn : Nat} (h1 : (nibble1 w).toNat = n1)
    (hnn : (fieldNN w).toNat = nn) : formatXNN (BitVec.ofNat 4 n1) (fieldX w) (BitVec.ofNat 8 nn) = w := by
  rw [← hnn, BitVec.ofNat_toNat, BitVec.setWidth_eq, formatXNN_of_nibble1 h1]

theorem formatXYN_of_nibbles {w : Word} {n1 n4 : Nat} (h1 : (nibble1 w).toNat = n1) (h4 : (nibble4 w).toNat = n4) :
    formatXYN (BitVec.ofNat 4 n1) (fieldX w) (fieldY w) (BitVec.ofNat 4 n4) = w := by
  rw [← h1, ← h4, BitVec.ofNat_toNat, BitVec.ofNat_toNat, BitVec.setWidth_eq, BitVec.setWidth_eq, formatXYN_fields]

/-! ## The word of what a word decodes to (R85) -/

theorem encode_of_decodeAlu {w : Word} {i : Instr} (h1 : (nibble1 w).toNat = 0x8) (h : decodeAlu w = some i) :
    encode i = w := by
  unfold decodeAlu at h
  split at h
  case h_10 => cases h
  all_goals
    rename_i h4
    cases h
    exact formatXYN_of_nibbles h1 h4

theorem encode_of_decodeSystem {w : Word} {i : Instr} (h1 : (nibble1 w).toNat = 0xF) (h : decodeSystem w = some i) :
    encode i = w := by
  unfold decodeSystem at h
  split at h
  case h_4 => cases h
  all_goals
    rename_i hnn
    cases h
    exact formatXNN_of_nibble1_fieldNN h1 hnn

theorem encode_of_decodeOp {w : Word} {i : Instr} (h : decodeOp w = some i) : encode i = w := by
  unfold decodeOp at h
  split at h <;> rename_i h1
  case h_1 => -- 0x0
    obtain ⟨rfl, h⟩ := Option.ite_none_right_eq_some.mp h
    cases h
    rfl
  case h_5 => -- 0x5
    obtain ⟨h4, h⟩ := Option.ite_none_right_eq_some.mp h
    cases h
    exact formatXYN_of_nibbles h1 (congrArg BitVec.toNat h4)
  case h_8 => exact encode_of_decodeAlu h1 h
  case h_12 => exact encode_of_decodeSystem h1 h
  case h_11 => -- 0xD
    cases h
    exact formatXYN_of_nibbles h1 rfl
  case h_13 => cases h
  case h_2 | h_9 | h_10 =>
    cases h
    exact formatNNN_of_nibble1 h1
  case h_3 | h_4 | h_6 | h_7 =>
    cases h
    exact formatXNN_of_nibble1 h1

/-! ## The decoder on the word of an instruction (R84) -/

theorem decodeOp_formatXYN_alu (x y : Reg) (n4 : BitVec 4) :
    decodeOp (formatXYN 0x8#4 x y n4) = decodeAlu (formatXYN 0x8#4 x y n4) := by
  simp [decodeOp]

theorem decodeOp_formatXNN_system (x : Reg) (nn : Byte) :
    decodeOp (formatXNN 0xF#4 x nn) = decodeSystem (formatXNN 0xF#4 x nn) := by
  simp [decodeOp]

/-- The decoder proper finds every well-formed instruction of R84 in its word. -/
theorem decodeOp_encode {i : Instr} (hwf : i.wellFormed = true) (hi : i ≠ .haltSentinel) :
    decodeOp (encode i) = some i := by
  cases i with
  | haltSentinel => exact absurd rfl hi
  | cls => rfl
  | jp | ldi | jpOff | seImm | sne | ldImm | addImm | seDir => simp [encode, decodeOp]
  | ldDir | or | and | xor | addDir | sub | shr | subn | shl =>
    simp [encode, decodeOp_formatXYN_alu, decodeAlu]
  | ldvdt | ldk | lddt => simp [encode, decodeOp_formatXNN_system, decodeSystem]
  | drw x y n =>
    have hn : n < 16 := of_decide_eq_true hwf
    simp [encode, decodeOp, fieldN, Nat.mod_eq_of_lt hn]

/-! ## What the decoder answers -/

/-- Handed 0x0000 the decoder proper fails (R90). -/
theorem decodeOp_zero : decodeOp 0x0000#16 = none := rfl

theorem decode_of_ne_zero {w : Word} (hw : w ≠ 0x0000#16) : decode w = decodeOp w := if_neg hw

/-- What the decoder proper answers is no sentinel, whose word it rejects (R90). -/
theorem ne_haltSentinel_of_decodeOp {w : Word} {i : Instr} (h : decodeOp w = some i) : i ≠ .haltSentinel := by
  rintro rfl
  have hw : 0x0000#16 = w := encode_of_decodeOp h
  rw [← hw, decodeOp_zero] at h
  cases h

/-- A word decodes to `i` exactly when it is the word of `i` and `i` is well-formed. -/
theorem decode_eq_some_iff {w : Word} {i : Instr} : decode w = some i ↔ i.wellFormed = true ∧ encode i = w := by
  constructor
  · intro h
    refine ⟨decode_wellFormed h, ?_⟩
    by_cases hw : w = 0x0000#16
    · subst hw
      cases h
      rfl
    · rw [decode_of_ne_zero hw] at h
      exact encode_of_decodeOp h
  · rintro ⟨hwf, rfl⟩
    by_cases hi : i = .haltSentinel
    · subst hi
      rfl
    · have hop := decodeOp_encode hwf hi
      rwa [decode_of_ne_zero fun hz => by simp [hz, decodeOp_zero] at hop]

/-- Bytes whose word decodes give the instruction and what follows it (R80). -/
theorem decodeBytes_of_decode {w : Word} {i : Instr} (h : decode w = some i) (rest : List Byte) :
    decodeBytes (highByte w :: lowByte w :: rest) = .ok (i, rest) := by
  simp [decodeBytes, Machine.wordOfBytes_highByte_lowByte, h]

/-- Settles O49, from what the decoder answers; the bytes are the word's halves. -/
theorem decodeOfEncodeIsTheInstruction : Obligations.DecodeOfEncodeIsTheInstruction := by
  intro i rest hwf
  have h : decode (encode i) = some i := decode_eq_some_iff.mpr ⟨hwf, rfl⟩
  exact ⟨h, decodeBytes_of_decode h rest⟩

/-- Settles O50, from what the decoder answers. -/
theorem encodeOfDecodeIsTheWord : Obligations.EncodeOfDecodeIsTheWord :=
  fun _ _ => decode_eq_some_iff.mp

/-! ## The opcode map (R84) -/

theorem row_mem_opRows {i : Instr} (hi : i ≠ .haltSentinel) : i.row ∈ opRows := by
  cases i with
  | haltSentinel => exact absurd rfl hi
  | _ => simp [opRows, Instr.row]

/-- The sentinel's row is none of the map's (R90). -/
theorem haltSentinel_row_notMem_opRows : Instr.row .haltSentinel ∉ opRows := by decide

theorem exists_row_of_mem_opRows {r : OpRow} (hr : r ∈ opRows) : ∃ i : Instr, i.row = r := by
  simp only [opRows, ← List.map_append, List.mem_map] at hr
  obtain ⟨i, -, hrow⟩ := hr
  exact ⟨i, hrow⟩

/-- The word of an instruction lies in the instruction's row. -/
theorem row_hits_encode (i : Instr) : i.row.hits (encode i) = true := by
  cases i with
  | cls => exact Laws.MatchesRow.cls
  | jp nnn => exact Laws.MatchesRow.jp nnn
  | seImm x nn => exact Laws.MatchesRow.seImm x nn
  | sne x nn => exact Laws.MatchesRow.sne x nn
  | seDir x y => exact Laws.MatchesRow.seDir x y
  | ldImm x nn => exact Laws.MatchesRow.ldImm x nn
  | addImm x nn => exact Laws.MatchesRow.addImm x nn
  | ldDir x y => exact Laws.MatchesRow.ldDir x y
  | or x y => exact Laws.MatchesRow.or x y
  | and x y => exact Laws.MatchesRow.and x y
  | xor x y => exact Laws.MatchesRow.xor x y
  | addDir x y => exact Laws.MatchesRow.addDir x y
  | sub x y => exact Laws.MatchesRow.sub x y
  | shr x y => exact Laws.MatchesRow.shr x y
  | subn x y => exact Laws.MatchesRow.subn x y
  | shl x y => exact Laws.MatchesRow.shl x y
  | ldi nnn => exact Laws.MatchesRow.ldi nnn
  | jpOff nnn => exact Laws.MatchesRow.jpOff nnn
  | drw x y n => exact Laws.MatchesRow.drw x y n
  | ldvdt x => exact Laws.MatchesRow.ldvdt x
  | ldk x => exact Laws.MatchesRow.ldk x
  | lddt x => exact Laws.MatchesRow.lddt x
  | haltSentinel => exact Laws.MatchesRow.haltSentinel

/-! ## A word that a row matches

Each mask of the map fixes the opcode fields of a format, and the word is that format of its own other fields. -/

theorem eq_of_hits {r : OpRow} {w : Word} (h : r.hits w = true) (hm : r.mask = 0xFFFF#16) : r.pat = w := by
  have hw : w &&& 0xFFFF#16 = w := BitVec.and_allOnes
  rw [← hw, ← hm]
  exact (eq_of_beq h).symm

section
variable {r : OpRow} {w : Word} {n1 n4 : BitVec 4} {nn : Byte}

theorem nibble1_of_hits (h : r.hits w = true) (hm : r.mask = 0xF000#16) (hp : formatNNN n1 0#12 = r.pat) :
    nibble1 w = n1 := by
  have hmasked : formatNNN (nibble1 w) 0#12 = formatNNN n1 0#12 := by
    rw [← mask_nibble1 (nibble1 w) (fieldNNN w), formatNNN_fields, hp, ← hm]
    exact eq_of_beq h
  simpa using congrArg nibble1 hmasked

theorem formatNNN_of_hits (h : r.hits w = true) (hm : r.mask = 0xF000#16) (hp : formatNNN n1 0#12 = r.pat) :
    formatNNN n1 (fieldNNN w) = w := by
  rw [← nibble1_of_hits h hm hp, formatNNN_fields]

theorem formatXNN_of_hits (h : r.hits w = true) (hm : r.mask = 0xF000#16) (hp : formatNNN n1 0#12 = r.pat) :
    formatXNN n1 (fieldX w) (fieldNN w) = w := by
  rw [← nibble1_of_hits h hm hp, formatXNN_fields]

theorem formatXYN_of_hits (h : r.hits w = true) (hm : r.mask = 0xF000#16) (hp : formatNNN n1 0#12 = r.pat) :
    formatXYN n1 (fieldX w) (fieldY w) (nibble4 w) = w := by
  rw [← nibble1_of_hits h hm hp, formatXYN_fields]

/-- Of format XYF the row fixes the function code too. -/
theorem formatXYF_of_hits (h : r.hits w = true) (hm : r.mask = 0xF00F#16) (hp : formatXYN n1 0 0 n4 = r.pat) :
    formatXYN n1 (fieldX w) (fieldY w) n4 = w := by
  have hmasked : formatXYN (nibble1 w) 0 0 (nibble4 w) = formatXYN n1 0 0 n4 := by
    rw [← mask_nibbles (nibble1 w) (fieldX w) (fieldY w), formatXYN_fields, hp, ← hm]
    exact eq_of_beq h
  have h1 : nibble1 w = n1 := by simpa using congrArg nibble1 hmasked
  have h4 : nibble4 w = n4 := by simpa using congrArg nibble4 hmasked
  rw [← h1, ← h4, formatXYN_fields]

/-- The 0xF family's rows fix the low byte. -/
theorem formatXNN_of_hits_lowByte (h : r.hits w = true) (hm : r.mask = 0xF0FF#16) (hp : formatXNN n1 0 nn = r.pat) :
    formatXNN n1 (fieldX w) nn = w := by
  have hmasked : formatXNN (nibble1 w) 0 (fieldNN w) = formatXNN n1 0 nn := by
    rw [← mask_lowByte (nibble1 w) (fieldX w) (fieldNN w), formatXNN_fields, hp, ← hm]
    exact eq_of_beq h
  have h1 : nibble1 w = n1 := by simpa using congrArg nibble1 hmasked
  have hnn : fieldNN w = nn := by simpa using congrArg fieldNN hmasked
  rw [← h1, ← hnn, formatXNN_fields]

end

/-- A word that an instruction's row matches is the word of a well-formed instruction of that row. -/
theorem exists_encode_of_row_hits {j : Instr} {w : Word} (h : j.row.hits w = true) :
    ∃ i : Instr, i.row = j.row ∧ i.wellFormed = true ∧ encode i = w := by
  cases j with
  | cls => exact ⟨.cls, rfl, rfl, eq_of_hits h rfl⟩
  | jp => exact ⟨.jp (fieldNNN w), rfl, rfl, formatNNN_of_hits h rfl rfl⟩
  | seImm => exact ⟨.seImm (fieldX w) (fieldNN w), rfl, rfl, formatXNN_of_hits h rfl rfl⟩
  | sne => exact ⟨.sne (fieldX w) (fieldNN w), rfl, rfl, formatXNN_of_hits h rfl rfl⟩
  | seDir => exact ⟨.seDir (fieldX w) (fieldY w), rfl, rfl, formatXYF_of_hits h rfl rfl⟩
  | ldImm => exact ⟨.ldImm (fieldX w) (fieldNN w), rfl, rfl, formatXNN_of_hits h rfl rfl⟩
  | addImm => exact ⟨.addImm (fieldX w) (fieldNN w), rfl, rfl, formatXNN_of_hits h rfl rfl⟩
  | ldDir => exact ⟨.ldDir (fieldX w) (fieldY w), rfl, rfl, formatXYF_of_hits h rfl rfl⟩
  | or => exact ⟨.or (fieldX w) (fieldY w), rfl, rfl, formatXYF_of_hits h rfl rfl⟩
  | and => exact ⟨.and (fieldX w) (fieldY w), rfl, rfl, formatXYF_of_hits h rfl rfl⟩
  | xor => exact ⟨.xor (fieldX w) (fieldY w), rfl, rfl, formatXYF_of_hits h rfl rfl⟩
  | addDir => exact ⟨.addDir (fieldX w) (fieldY w), rfl, rfl, formatXYF_of_hits h rfl rfl⟩
  | sub => exact ⟨.sub (fieldX w) (fieldY w), rfl, rfl, formatXYF_of_hits h rfl rfl⟩
  | shr => exact ⟨.shr (fieldX w) (fieldY w), rfl, rfl, formatXYF_of_hits h rfl rfl⟩
  | subn => exact ⟨.subn (fieldX w) (fieldY w), rfl, rfl, formatXYF_of_hits h rfl rfl⟩
  | shl => exact ⟨.shl (fieldX w) (fieldY w), rfl, rfl, formatXYF_of_hits h rfl rfl⟩
  | ldi => exact ⟨.ldi (fieldNNN w), rfl, rfl, formatNNN_of_hits h rfl rfl⟩
  | jpOff => exact ⟨.jpOff (fieldNNN w), rfl, rfl, formatNNN_of_hits h rfl rfl⟩
  | drw =>
    refine ⟨.drw (fieldX w) (fieldY w) (fieldN w), rfl, decide_eq_true (nibble4 w).isLt, ?_⟩
    have hn4 : BitVec.ofNat 4 (fieldN w) = nibble4 w := by simp [fieldN]
    rw [encode, hn4]
    exact formatXYN_of_hits h rfl rfl
  | ldvdt => exact ⟨.ldvdt (fieldX w), rfl, rfl, formatXNN_of_hits_lowByte h rfl rfl⟩
  | ldk => exact ⟨.ldk (fieldX w), rfl, rfl, formatXNN_of_hits_lowByte h rfl rfl⟩
  | lddt => exact ⟨.lddt (fieldX w), rfl, rfl, formatXNN_of_hits_lowByte h rfl rfl⟩
  | haltSentinel => exact ⟨.haltSentinel, rfl, rfl, eq_of_hits h rfl⟩

/-- What the decoder proper answers lies in its own row, a row of the map (R84, R85). -/
theorem row_of_decodeOp {w : Word} {i : Instr} (h : decodeOp w = some i) : i.row ∈ opRows ∧ i.row.hits w = true := by
  refine ⟨row_mem_opRows (ne_haltSentinel_of_decodeOp h), ?_⟩
  rw [← encode_of_decodeOp h]
  exact row_hits_encode i

/-- A word that a row of the map matches decodes to an instruction of that row (R84, R85). -/
theorem decodeOp_of_hits {w : Word} {r : OpRow} (hr : r ∈ opRows) (h : r.hits w = true) :
    ∃ i, decodeOp w = some i ∧ i.row = r := by
  obtain ⟨j, rfl⟩ := exists_row_of_mem_opRows hr
  obtain ⟨i, hrow, hwf, rfl⟩ := exists_encode_of_row_hits h
  have hi : i ≠ .haltSentinel := by
    rintro rfl
    exact haltSentinel_row_notMem_opRows (hrow ▸ hr)
  exact ⟨i, decodeOp_encode hwf hi, hrow⟩

/-- Settles O51: a decoded word is in its row, a matched word decodes into the row, and so either fails with the other. -/
theorem dispatchAgreesWithTheOpcodeMap : Obligations.DispatchAgreesWithTheOpcodeMap := by
  refine fun w => ⟨fun i => row_of_decodeOp, fun r => decodeOp_of_hits, fun hnone r hr => ?_, fun hmiss => ?_⟩
  · rw [Bool.eq_false_iff]
    intro hhit
    obtain ⟨i, hsome, -⟩ := decodeOp_of_hits hr hhit
    rw [hnone] at hsome
    cases hsome
  · rw [Option.eq_none_iff_forall_ne_some]
    intro i hsome
    obtain ⟨hmem, hhit⟩ := row_of_decodeOp hsome
    rw [hmiss i.row hmem] at hhit
    cases hhit

/-! ## Single opcodes -/

/-- The dispatch of the 0x5 family (R88). -/
theorem decodeOp_of_nibble1_five {w : Word} (h : (nibble1 w).toNat = 5) :
    decodeOp w = if nibble4 w = 0#4 then some (.seDir (fieldX w) (fieldY w)) else none := by
  simp [decodeOp, h]

/-- Settles O52, by the dispatch of the 0x5 family; 0x0000 is not in it. -/
theorem seDirNeedsAZeroNibble : Obligations.SEDirNeedsAZeroNibble := by
  intro w h5
  have hw : w ≠ 0x0000#16 := by
    rintro rfl
    cases h5
  have hdecode := (decode_of_ne_zero hw).trans (decodeOp_of_nibble1_five ((nibble1_toNat w).trans h5))
  have hn4 : nibble4 w = 0#4 ↔ w.toNat % 16 = 0 := by
    rw [← BitVec.toNat_inj, nibble4_toNat, BitVec.toNat_zero]
  refine ⟨fun h0 => ⟨fieldX w, fieldY w, ?_, fieldX_val w, fieldY_val w⟩, fun h0 => ?_⟩
  · rw [hdecode, if_pos (hn4.mpr h0)]
  · rw [hdecode, if_neg (mt hn4.mp h0)]

/-- Settles O53, by running the decoder on each word. -/
theorem wordsOfTheSpecDecode : Obligations.WordsOfTheSpecDecode := by
  unfold Obligations.WordsOfTheSpecDecode
  decide

end Sys2Proof

namespace Sys2Proof.Machine

/-! # Fetch, skip and the `Cycle` event (40_fetch_cycle.md R110 to R115)

`step_cycle_cases` says once what a step whose event is a `Cycle` in Running can do; the claims about fetching, the sentinel and the
decode error each take one of its cases. -/

/-! ## The word at `pc` -/

/-- The word that the two bytes at `pc` make, high byte first (R51): what an in-range fetch reads. -/
def State.fetchedWord (s : State) : Word := wordOfBytes (s.readByte s.pc.toNat) (s.readByte (s.pc.toNat + 1))

theorem State.fetch_of_in_range {s : State} (hp : s.pc.toNat + 1 < 4096) : s.fetch = .ok (s.fetchedWord, s.advance) := by
  obtain ⟨-, e⟩ | ⟨hge, -⟩ := s.fetch_cases
  · exact e
  · omega

theorem State.fetch_of_out_of_range {s : State} (hp : 4096 ≤ s.pc.toNat + 1) :
    s.fetch = .error (.executionFault s.pc.toNat) := by
  obtain ⟨hlt, -⟩ | ⟨-, e⟩ := s.fetch_cases
  · omega
  · exact e

theorem wordOfBytes_toNat (hi lo : Byte) : (wordOfBytes hi lo).toNat = 256 * hi.toNat + lo.toNat := by
  have hhigh := highByte_toNat (wordOfBytes hi lo)
  have hlow := lowByte_toNat (wordOfBytes hi lo)
  rw [highByte_wordOfBytes] at hhigh
  rw [lowByte_wordOfBytes] at hlow
  omega

theorem wordOfBytes_eq_zero_iff {hi lo : Byte} : wordOfBytes hi lo = 0#16 ↔ hi = 0#8 ∧ lo = 0#8 := by
  simp only [← BitVec.toNat_inj, wordOfBytes_toNat, BitVec.toNat_zero]
  omega

/-- Settles O6, by the two cases of a fetch; in range the sum `pc + 2` does not wrap. -/
theorem fetchReadsAWordAndAdvances : Obligations.FetchReadsAWordAndAdvances := fun s =>
  ⟨fun hp => ⟨s.fetchedWord, s.advance, State.fetch_of_in_range hp, wordOfBytes_toNat _ _, State.advance_pc_toNat hp,
    s.advance_frame⟩, State.fetch_of_out_of_range⟩

/-! ## A step whose event is a `Cycle` -/

/-- Everything a step can do whose event is a `Cycle` in Running (R111). -/
theorem step_cycle_cases {s : State} (hnext : s.nextEvent = some .cycle) (hr : s.run = .running) :
    (4096 ≤ s.pc.toNat + 1 ∧ step s = .next ((s.take .cycle).raise (.executionFault s.pc.toNat))) ∨
      (s.pc.toNat + 1 < 4096 ∧
        ((decode s.fetchedWord = none ∧
            step s = .next ((s.take .cycle).advance.raise (.decodeError s.fetchedWord s.pc.toNat))) ∨
          ∃ i, decode s.fetchedWord = some i ∧ step s = exec i (s.take .cycle).advance)) := by
  have hstep : step s = cycle (s.take .cycle) := step_of_event hnext Event.noConfusion
  rw [hstep]
  simpa [State.fetchedWord] using cycle_cases (s := s.take .cycle) hr

/-- A word that decodes is executed with `pc` advanced (R111, R114). -/
theorem step_of_decode {s : State} {i : Instr} (hnext : s.nextEvent = some .cycle) (hr : s.run = .running)
    (hp : s.pc.toNat + 1 < 4096) (hdecode : decode s.fetchedWord = some i) :
    step s = exec i (s.take .cycle).advance := by
  obtain ⟨hge, -⟩ | ⟨-, ⟨hnone, -⟩ | ⟨j, hsome, e⟩⟩ := step_cycle_cases hnext hr
  · omega
  · simp [hdecode] at hnone
  · rw [hdecode] at hsome
    cases hsome
    exact e

/-- Settles O7: it is the case of a word that decodes. -/
theorem stepRunsTheDecodedInstruction : Obligations.StepRunsTheDecodedInstruction :=
  fun _ _ => step_of_decode

/-- Settles O11: it is the case of a fetch that faults. -/
theorem fetchOutOfRangeHalts : Obligations.FetchOutOfRangeHalts := by
  intro s hnext hr hp
  obtain ⟨-, e⟩ | ⟨hlt, -⟩ := step_cycle_cases hnext hr
  · exact ⟨_, e, rfl, rfl, rfl, rfl, rfl, rfl, rfl⟩
  · omega

/-- A word other than 0x0000 that no row of the opcode map matches is no instruction (R89). -/
theorem decode_eq_none_of_unlisted {w : Word} (hw : w ≠ 0#16) (hmiss : ∀ r ∈ opRows, r.hits w = false) :
    decode w = none := by
  obtain ⟨-, -, hnone⟩ := dispatchAgreesWithTheOpcodeMap w
  rw [decode_of_ne_zero hw]
  exact hnone.mpr hmiss

/-- Settles O10: it is the case of a word that does not decode. -/
theorem unlistedWordHaltsWithDecodeError : Obligations.UnlistedWordHaltsWithDecodeError := by
  rintro s w hnext hr hp rfl hw hmiss
  have hnone : decode s.fetchedWord = none := decode_eq_none_of_unlisted hw hmiss
  obtain ⟨hge, -⟩ | ⟨-, ⟨-, e⟩ | ⟨i, hsome, -⟩⟩ := step_cycle_cases hnext hr
  · omega
  · exact ⟨_, e, rfl, State.advance_pc_toNat (s := s.take .cycle) hp, rfl, rfl, rfl, rfl, rfl⟩
  · simp [hnone] at hsome

/-! ## Skips -/

/-- `c` is the test of the skip `i` (R131 to R133). -/
def SkipTest (s : State) (i : Instr) (c : Prop) : Prop :=
  (∃ x nn, i = .seImm x nn ∧ (c ↔ s.reg x = nn)) ∨ (∃ x nn, i = .sne x nn ∧ (c ↔ s.reg x ≠ nn)) ∨
    ∃ x y, i = .seDir x y ∧ (c ↔ s.reg x = s.reg y)

/-- A skip is the conditional skip on its test. -/
theorem exec_of_skipTest {s : State} {i : Instr} {c : Prop} (h : SkipTest s i c) :
    ∃ b : Bool, (b = true ↔ c) ∧ exec i s = .next (s.skipIf b) := by
  obtain ⟨x, nn, rfl, hc⟩ | ⟨x, nn, rfl, hc⟩ | ⟨x, y, rfl, hc⟩ := h
  · exact ⟨_, beq_iff_eq.trans hc.symm, rfl⟩
  · exact ⟨_, bne_iff_ne.trans hc.symm, rfl⟩
  · exact ⟨_, beq_iff_eq.trans hc.symm, rfl⟩

/-- Settles O12, by the three cases of a conditional skip. -/
theorem skipsMoveTwoMoreWhenTheTestHolds : Obligations.SkipsMoveTwoMoreWhenTheTestHolds := by
  intro s i c htest
  obtain ⟨b, hb, hexec⟩ := exec_of_skipTest htest
  rw [hexec, ← hb]
  obtain ⟨rfl, e⟩ | ⟨rfl, hp, e⟩ | ⟨rfl, hp, e⟩ := s.skipIf_cases b <;> rw [e]
  · exact ⟨fun _ => rfl, fun h => absurd h Bool.false_ne_true, fun h => absurd h Bool.false_ne_true⟩
  · exact ⟨fun h => absurd rfl h, fun _ _ => ⟨_, rfl, State.advance_pc_toNat hp, s.advance_frame⟩, fun _ _ => by omega⟩
  · exact ⟨fun h => absurd rfl h, fun _ _ => by omega,
      fun _ _ => ⟨_, rfl, rfl, rfl, rfl, rfl, rfl, .of_eq rfl rfl, rfl, rfl⟩⟩

/-! ## What an instruction does to `pc` and to the run state -/

/-- `pc` is written by JP and JPOff, and moved by a skip (R114). -/
theorem Effect.pc {s t : State} {i : Instr} (h : Effect s i t) :
    t.pc = s.pc ∨ (∃ nnn, i = .jp nnn ∨ i = .jpOff nnn) ∨ (IsSkip i ∧ t.pc.toNat = s.pc.toNat + 2) := by
  cases h with
  | skip c hi =>
    obtain e | ⟨-, e⟩ := s.skipIf_pc c
    · exact .inl e
    · exact .inr (.inr ⟨hi, e⟩)
  | jump nnn hi => exact .inr (.inl ⟨nnn, .inl hi⟩)
  | jumpOff nnn hi => exact .inr (.inl ⟨nnn, .inr hi⟩)
  | draw x y n => exact .inl (drawRows_frame ..).pc
  | _ => exact .inl rfl

/-- Settles O43, from what every effect does to `pc`. -/
theorem onlyControlFlowWritesThePc : Obligations.OnlyControlFlowWritesThePc :=
  fun _ _ _ h => (effect_of_exec h).pc

/-- Rows drawn leave `run`, or halt the core at an address out of range (R165). -/
theorem drawRows_run_cases (vx vy : Byte) (base left i : Nat) (s : State) :
    (drawRows vx vy base left i s).run = s.run ∨
      ∃ a, 4096 ≤ a ∧ (drawRows vx vy base left i s).run = .halted (.executionFault a) := by
  induction left generalizing i s with
  | zero => exact .inl rfl
  | succ left ih =>
    rcases Nat.lt_or_ge (base + i) 4096 with hr | hr
    · rw [drawRows_succ hr, ← drawRow_run vx vy i (s.readByte (base + i)) s]
      exact ih _ _
    · exact .inr ⟨_, hr, by rw [drawRows_fault hr, State.raise_run]⟩

/-- An instruction leaves `run`, or is LDK and waits, or is the sentinel and ends the program, or faults on a read whose last byte is
out of range (R112, R181, R202). -/
theorem Effect.run_cases {s t : State} {i : Instr} (h : Effect s i t) :
    t.run = s.run ∨ (∃ x, i = .ldk x ∧ t.run = .waitKey x) ∨ (i = .haltSentinel ∧ t.run = .halted .sentinel) ∨
      ∃ a, 4095 ≤ a ∧ t.run = .halted (.executionFault a) := by
  cases h with
  | skip c =>
    obtain ⟨-, e⟩ | ⟨-, -, e⟩ | ⟨-, hp, e⟩ := s.skipIf_cases c
    · exact .inl (by rw [e])
    · exact .inl (by rw [e, State.advance_run])
    · exact .inr (.inr (.inr ⟨_, Nat.le_of_succ_le_succ hp, by rw [e, State.raise_run]⟩))
  | draw x y n =>
    obtain e | ⟨a, ha, e⟩ := drawRows_run_cases (s.reg x) (s.reg y) s.ir.toNat n 0 s
    · exact .inl e
    · exact .inr (.inr (.inr ⟨a, Nat.le_of_succ_le ha, e⟩))
  | wait x hi => exact .inr (.inl ⟨x, hi, rfl⟩)
  | halt hi => exact .inr (.inr (.inl ⟨hi, rfl⟩))
  | _ => exact .inl rfl

/-- No instruction but the sentinel row ends a program (R112). -/
theorem Effect.eq_haltSentinel {s t : State} {i : Instr} (h : Effect s i t) (hs : s.run ≠ .halted .sentinel)
    (ht : t.run = .halted .sentinel) : i = .haltSentinel := by
  obtain e | ⟨x, -, e⟩ | ⟨hi, -⟩ | ⟨a, -, e⟩ := h.run_cases
  · exact absurd (e.symm.trans ht) hs
  · rw [ht] at e; cases e
  · exact hi
  · rw [ht] at e; cases e

/-- Settles O31: the sentinel row raises `Sentinel`, which writes `run` alone. -/
theorem sentinelRowHalts : Obligations.SentinelRowHalts := fun s =>
  ⟨s.raise .sentinel, rfl, rfl, .of_x rfl _, rfl, rfl, rfl, .of_eq rfl rfl, rfl, rfl⟩

/-! # Events and the run state (40_fetch_cycle.md R117, R118) -/

/-! ## Events out of place -/

theorem State.onLoad_of_not_loading {s : State} (hr : s.run ≠ .loading) (a : Addr12) (v : Byte) : s.onLoad a v = s :=
  (s.onLoad_eq a v).trans (if_neg hr)

theorem State.onStart_of_not_loading {s : State} (hr : s.run ≠ .loading) : s.onStart = s :=
  s.onStart_eq.trans (if_neg hr)

/-- In Loading and Halted the timer does not count (R214, D15). -/
theorem State.onTick_of_idle {s : State} (hr : s.run = .loading ∨ ∃ z, s.run = .halted z) : s.onTick = s := by
  unfold State.onTick
  obtain hr | ⟨z, hr⟩ := hr <;> rw [hr]

/-- Outside a wait a key is dropped (R118). -/
theorem State.onKey_of_not_waiting {s : State} (hr : ∀ r, s.run ≠ .waitKey r) (k : BitVec 4) : s.onKey k = s := by
  obtain e | ⟨r, hwait, -⟩ := s.onKey_cases k
  · exact e
  · exact absurd hwait (hr r)

/-- Outside Running a `Tick` is delivered, however many have come in the slice (D10). -/
theorem step_of_tick_of_not_running {s : State} (hnext : s.nextEvent = some .tick) (hr : s.run ≠ .running) :
    step s = applyEvent .tick (s.take .tick) := by
  have hsecond : s.secondTick = false := by simp [State.secondTick, hr]
  unfold step deliver
  rw [hnext]
  exact if_neg fun h => by simp [hsecond] at h

theorem RunState.ne_running_of_idle {r : RunState} (h : r = .loading ∨ ∃ z, r = .halted z) : r ≠ .running := by
  obtain rfl | ⟨z, rfl⟩ := h <;> exact RunState.noConfusion

/-- Settles O41, event by event: each is taken from the schedule and has no other effect. -/
theorem eventsOutOfPlaceDoNothing : Obligations.EventsOutOfPlaceDoNothing := by
  intro s ev hnext hplace
  refine ⟨s.take ev, ?_, .take s ev⟩
  obtain ⟨rfl, hr⟩ | ⟨⟨k, rfl⟩, hr⟩ | ⟨rfl, hr⟩ | ⟨⟨a, v, rfl⟩ | rfl, hr⟩ := hplace
  · exact (step_of_event hnext Event.noConfusion).trans (cycle_of_not_running hr)
  · have hkey : (s.take (.key k)).onKey k = s.take (.key k) :=
      State.onKey_of_not_waiting (s := s.take _) hr k
    rw [step_of_event hnext Event.noConfusion, applyEvent, hkey]
  · have htick : (s.take .tick).onTick = s.take .tick := State.onTick_of_idle hr
    rw [step_of_tick_of_not_running hnext (RunState.ne_running_of_idle hr), applyEvent, htick]
  · have hload : (s.take (.load a v)).onLoad a v = s.take (.load a v) :=
      State.onLoad_of_not_loading (s := s.take _) hr a v
    rw [step_of_event hnext Event.noConfusion, applyEvent, hload]
  · have hstart : (s.take .start).onStart = s.take .start := State.onStart_of_not_loading hr
    rw [step_of_event hnext Event.noConfusion, applyEvent, hstart]

/-! ## The table of transitions -/

theorem transition_reset (r : RunState) : Transition r .reset .loading := by
  cases r <;> rfl

/-- Every other event than `Reset`, `Start` and `Key` may leave the run state as it is (R118). -/
theorem transition_of_run_eq {r r' : RunState} {ev : Event} (hrun : r' = r)
    (hev : ev ≠ .reset ∧ ev ≠ .start ∧ ∀ k, ev ≠ .key k) : Transition r ev r' := by
  obtain ⟨hreset, hstart, hkey⟩ := hev
  subst hrun
  cases ev with
  | reset => exact absurd rfl hreset
  | start => exact absurd rfl hstart
  | key k => exact absurd rfl (hkey k)
  | cycle =>
    cases r' with
    | running => exact .inl rfl
    | _ => rfl
  | _ => cases r' <;> rfl

/-- A `Load` leaves the run state (R241). -/
theorem State.onLoad_run (s : State) (a : Addr12) (v : Byte) : (s.onLoad a v).run = s.run := by
  rw [State.onLoad_eq]
  split
  · obtain ⟨-, -, hrun, -⟩ := s.writeByte_rest a.toNat v
    exact hrun
  · rfl

theorem State.onTick_run (s : State) : s.onTick.run = s.run := by
  obtain e | e := s.onTick_cases <;> rw [e]

theorem State.transition_onStart (s : State) : Transition s.run .start s.onStart.run := by
  rw [State.onStart_eq]
  cases hr : s.run <;> simp [hr, Transition]

theorem State.transition_onKey (s : State) (k : BitVec 4) : Transition s.run (.key k) (s.onKey k).run := by
  unfold State.onKey
  cases hr : s.run <;> simp [hr, Transition]

/-- A `Cycle` moves the run state in Running only, and then by a halt or by the instruction it executes. -/
theorem transition_of_cycle {s t : State} (h : cycle s = .next t) : Transition s.run .cycle t.run := by
  obtain rfl | ⟨hr, hcase⟩ := cycle_next h
  · exact transition_of_run_eq rfl (by simp)
  rw [hr]
  obtain ⟨z, rfl⟩ | ⟨-, ⟨z, rfl⟩ | ⟨i, heff⟩⟩ := hcase
  · exact .inr (.inr ⟨z, rfl⟩)
  · exact .inr (.inr ⟨z, rfl⟩)
  · exact heff.run.imp_left fun e => e.trans hr

/-- Every event moves the run state as the table allows. -/
theorem transition_of_applyEvent {ev : Event} {s t : State} (h : applyEvent ev s = .next t) :
    Transition s.run ev t.run := by
  cases ev with
  | reset => cases h; exact transition_reset s.run
  | start => cases h; exact s.transition_onStart
  | cycle => exact transition_of_cycle h
  | key k => cases h; exact s.transition_onKey k
  | load a v => cases h; exact transition_of_run_eq (s.onLoad_run a v) (by simp)
  | tick => cases h; exact transition_of_run_eq s.onTick_run (by simp)
  | fbRead | status | quit => cases h; exact transition_of_run_eq rfl (by simp)

/-- Settles O42: a step takes its event from the schedule, which is no part of the run state, and applies it. -/
theorem runStateFollowsTheTable : Obligations.RunStateFollowsTheTable := by
  intro s t ev hnext h
  obtain ⟨ev', hnext', -, happly⟩ := step_next h
  obtain rfl : ev = ev' := Option.some.inj (hnext.symm.trans hnext')
  exact transition_of_applyEvent (s := s.take ev) happly

/-! # The end of a program (40_fetch_cycle.md R112) -/

/-- By the table the core comes to a halt in a `Cycle` in Running only (R117). -/
theorem Transition.halted {r : RunState} {ev : Event} {z : HaltReason} (h : Transition r ev (.halted z))
    (hr : r ≠ .halted z) : ev = .cycle ∧ r = .running := by
  unfold Transition at h
  split at h
  · cases h
  · cases h
  · exact ⟨rfl, rfl⟩
  · cases h
  · exact absurd h.symm hr

/-- 0x0000 and no other word is the sentinel (R90). -/
theorem decode_eq_haltSentinel_iff {w : Word} : decode w = some .haltSentinel ↔ w = 0#16 := by
  rw [decode_eq_some_iff]
  exact ⟨fun ⟨_, e⟩ => e.symm, fun e => ⟨rfl, e.symm⟩⟩

/-- A step that ends a program is a `Cycle` that has fetched the sentinel, and raises `Sentinel` with `pc` advanced. -/
theorem step_to_sentinel {s t : State} (hs : s.run ≠ .halted .sentinel) (h : step s = .next t)
    (ht : t.run = .halted .sentinel) :
    s.nextEvent = some .cycle ∧ s.run = .running ∧ s.pc.toNat + 1 < 4096 ∧ s.fetchedWord = 0#16 ∧
      t = (s.take .cycle).advance.raise .sentinel := by
  obtain ⟨ev, hnext, -⟩ := step_next h
  have htable : Transition s.run ev (.halted .sentinel) := ht ▸ runStateFollowsTheTable s t ev hnext h
  obtain ⟨rfl, hr⟩ := htable.halted hs
  obtain ⟨-, e⟩ | ⟨hp, ⟨-, e⟩ | ⟨i, hdecode, e⟩⟩ := step_cycle_cases hnext hr <;> rw [e] at h
  · cases h; cases ht
  · cases h; cases ht
  · obtain rfl : i = .haltSentinel := (effect_of_exec h).eq_haltSentinel hs ht
    cases h
    exact ⟨hnext, hr, hp, decode_eq_haltSentinel_iff.mp hdecode, rfl⟩

/-- Settles O9: a halt comes of a `Cycle` by the table, `Sentinel` of the sentinel row alone, and that row of 0x0000 alone. -/
theorem sentinelWordIsTheOnlyNormalEnd : Obligations.SentinelWordIsTheOnlyNormalEnd := by
  refine fun s hs => ⟨⟨?_, ?_⟩, fun t h ht => ?_⟩
  · rintro ⟨t, h, ht⟩
    obtain ⟨hnext, hr, hp, hw, -⟩ := step_to_sentinel hs h ht
    exact ⟨hnext, hr, hp, wordOfBytes_eq_zero_iff.mp hw⟩
  · rintro ⟨hnext, hr, hp, hzero⟩
    have hw : s.fetchedWord = 0#16 := wordOfBytes_eq_zero_iff.mpr hzero
    exact ⟨_, step_of_decode hnext hr hp (decode_eq_haltSentinel_iff.mpr hw), rfl⟩
  · obtain ⟨-, -, hp, -, rfl⟩ := step_to_sentinel hs h ht
    exact ⟨State.advance_pc_toNat (s := s.take .cycle) hp, rfl, rfl, rfl, rfl, rfl⟩

/-! # A word placed for the next step (notes/assumptions/10.md) -/

/-- A table word decodes as the word of its low bits (R80). -/
theorem decodeTableWord_eq (nbits w : Nat) :
    decodeTableWord nbits w = decode (BitVec.ofNat 16 (w % 2 ^ nbits)) := by
  simp only [decodeTableWord, decodeBytes, wordOfBytes_highByte_lowByte]
  cases decode (BitVec.ofNat 16 (w % 2 ^ nbits)) <;> rfl

/-- A word fits at the slot, and no byte from there on is a view of a register. -/
theorem State.fetchSlot_spec (s : State) :
    s.fetchSlot.toNat + 1 < 4096 ∧ ∀ a, s.fetchSlot.toNat ≤ a → s.isView a = false := by
  have hview : s.fetchSlot.toNat + 1 < 4096 ∧ s.isView s.fetchSlot.toNat = false := by
    unfold State.fetchSlot
    split
    · next h =>
      simp only [State.canHoldWord, Bool.and_eq_true, Bool.not_eq_true', decide_eq_true_eq] at h
      exact h.1
    · exact ⟨by decide, by simp [State.isView, Config.viewSize]⟩
  refine ⟨hview.1, fun a ha => Bool.eq_false_iff.mpr fun hv => ?_⟩
  obtain ⟨he, hlt⟩ := (s.isView_iff a).mp hv
  have := (s.isView_iff s.fetchSlot.toNat).mpr ⟨he, by omega⟩
  simp [hview.2] at this

/-- Placing a word writes two cells, `pc`, `run` and the schedule, and no register. -/
theorem State.placeWord_eq (s : State) (w : Word) :
    s.placeWord w = { s with
      pc := s.fetchSlot
      bytes := Memory.write (Memory.write s.bytes s.fetchSlot.toNat (highByte w)) (s.fetchSlot.toNat + 1) (lowByte w)
      run := .running
      env := { s.env with pending := .cycle :: s.env.pending } } := by
  obtain ⟨-, hview⟩ := s.fetchSlot_spec
  have hwrites := State.writeByte_plain (hview _ le_rfl) (highByte w)
  have hwrites' := State.writeByte_plain (s := { s with bytes := Memory.write s.bytes s.fetchSlot.toNat (highByte w) })
    (hview _ (Nat.le_succ _)) (lowByte w)
  simp only [State.placeWord, hwrites, hwrites']

@[simp] theorem State.placeWord_pc (s : State) (w : Word) : (s.placeWord w).pc = s.fetchSlot := rfl

@[simp] theorem State.placeWord_run (s : State) (w : Word) : (s.placeWord w).run = .running := rfl

/-- The word placed is the word the next fetch reads. -/
theorem State.fetchedWord_placeWord {s : State} (h : Memory.wf s.bytes = true) (w : Word) :
    (s.placeWord w).fetchedWord = w := by
  obtain ⟨hp, hview⟩ := s.fetchSlot_spec
  have halias : (s.placeWord w).env.regAlias = s.env.regAlias := by rw [s.placeWord_eq w]
  have hplain (a : Nat) (ha : s.fetchSlot.toNat ≤ a) :
      (s.placeWord w).readByte a = Memory.read (s.placeWord w).bytes a :=
    State.readByte_of_not_view ((State.isView_congr halias a).trans (hview a ha))
  have hwf : Memory.wf (Memory.write s.bytes s.fetchSlot.toNat (highByte w)) = true :=
    Memory.wf_write h (Nat.lt_of_succ_lt hp) _
  unfold State.fetchedWord
  rw [State.placeWord_pc, hplain _ le_rfl, hplain _ (Nat.le_succ _), s.placeWord_eq w]
  simp [Memory.read_write hwf, Memory.read_write h, wordOfBytes_highByte_lowByte]

/-- Settles O8: the placed state faces a `Cycle` in Running, and its fetch reads the placed word. -/
theorem placedWordRunsNext : Obligations.PlacedWordRunsNext := by
  intro s w i hwf hdecode
  rw [decodeTableWord_eq] at hdecode
  unfold State.withFetchWord
  generalize BitVec.ofNat 16 (w % 2 ^ 16) = word at hdecode ⊢
  have hplace := s.placeWord_eq word
  have hword := State.fetchedWord_placeWord hwf word
  have hnext : (s.placeWord word).nextEvent = some .cycle := nextEvent_of_cycle (l := s.env.pending) (by rw [hplace])
  have hp : (s.placeWord word).pc.toNat + 1 < 4096 := by
    rw [State.placeWord_pc]
    exact s.fetchSlot_spec.1
  have hpc := State.advance_pc_toNat (s := (s.placeWord word).take .cycle) hp
  rw [← hword] at hdecode
  refine ⟨_, step_of_decode hnext (s.placeWord_run word) hp hdecode, ?_, hpc, ?_⟩
  · simp
  · simp [hplace]

end Sys2Proof.Machine

namespace Sys2Proof.Machine

/-! # Jumps (41_control_flow.md R130, R134) -/

theorem zext8_toNat (b : Byte) : (zext8 b).toNat = b.toNat := BitVec.toNat_setWidth_of_le (by decide)

theorem zext12_toNat (nnn : Addr12) : (zext12 nnn).toNat = nnn.toNat := BitVec.toNat_setWidth_of_le (by decide)

/-- The 16-bit sum of JPOff is the sum of the numbers, for a byte and a 12-bit operand never reach 2^16 (R134). -/
theorem State.offsetTarget_toNat (s : State) (nnn : Addr12) :
    (s.offsetTarget nnn).toNat = (s.reg 0).toNat + nnn.toNat := by
  have hlt : (zext8 s.offset).toNat + (zext12 nnn).toNat < 2 ^ 16 := by
    rw [zext8_toNat, zext12_toNat]
    omega
  rw [State.offsetTarget, BitVec.toNat_add_of_lt hlt, zext8_toNat, zext12_toNat, State.offset]

/-- Loading `pc` changes nothing else, whatever the target. -/
theorem PcFrame.with_pc (s : State) (target : Word) : PcFrame s { s with pc := target } :=
  ⟨.of_x rfl _, rfl, rfl, .of_eq rfl rfl, rfl, rfl, rfl⟩

/-- Settles O13: JP loads `pc` with its zero-extended operand. -/
theorem jpLoadsTheProgramCounter : Obligations.JpLoadsTheProgramCounter := fun s nnn =>
  ⟨{ s with pc := zext12 nnn }, rfl, zext12_toNat nnn, .with_pc s _⟩

/-- Settles O14: JPOff loads `pc` with a sum that does not wrap. -/
theorem jpOffAddsV0WithoutMask : Obligations.JpOffAddsV0WithoutMask := fun s nnn =>
  ⟨{ s with pc := s.offsetTarget nnn }, rfl, s.offsetTarget_toNat nnn, .with_pc s _⟩

end Sys2Proof.Machine

namespace Sys2Proof.Machine

/-! # Loads and arithmetic (42_load_alu.md R140 to R152) -/

/-! ## The flags as numbers (R22) -/

theorem flagByte_toNat (f : Bool) : (flagByte f).toNat = f.toNat := by cases f <;> rfl

theorem carryFlag_toNat (a b : Byte) : (carryFlag a b).toNat = if a.toNat + b.toNat > 255 then 1 else 0 :=
  Bool.cond_decide _ _ _

theorem noBorrowFlag_toNat (a b : Byte) : (noBorrowFlag a b).toNat = if a.toNat ≥ b.toNat then 1 else 0 :=
  Bool.cond_decide _ _ _

/-- The bit that a shift to the right loses is the remainder (R148). -/
theorem lowBitFlag_toNat (a : Byte) : (lowBitFlag a).toNat = a.toNat % 2 :=
  (Nat.toNat_testBit a.toNat 0).trans (by rw [pow_zero, Nat.div_one])

/-- The bit that a shift to the left loses is the top one, for a byte is below 256 (R150). -/
theorem highBitFlag_toNat (a : Byte) : (highBitFlag a).toNat = a.toNat / 128 := by
  have hbit : (highBitFlag a).toNat = a.toNat / 2 ^ 7 % 2 := Nat.toNat_testBit a.toNat 7
  omega

/-! ## The results as numbers -/

/-- A difference modulo 256, the subtrahend taken off last (R147, R149). -/
theorem byte_sub_toNat (a b : Byte) : (a - b).toNat = (a.toNat + 256 - b.toNat) % 256 := by
  rw [BitVec.toNat_sub]
  omega

theorem byte_shiftRight_one_toNat (a : Byte) : (a >>> 1).toNat = a.toNat / 2 := by
  rw [BitVec.toNat_ushiftRight, Nat.shiftRight_eq_div_pow, pow_one]

theorem byte_shiftLeft_one_toNat (a : Byte) : (a <<< 1).toNat = a.toNat * 2 % 256 := by
  rw [BitVec.toNat_shiftLeft, Nat.shiftLeft_eq, pow_one]

/-! ## The two shapes of these instructions -/

/-- An instruction that writes one register: the destination holds the value, and nothing else changes. -/
theorem exec_setReg_spec {i : Instr} {s : State} {x : Reg} {v : Byte} (h : exec i s = .next (s.setReg x v)) :
    ∃ t : State, exec i s = .next t ∧ t.reg x = v ∧ RegFrame s t [x] :=
  ⟨s.setReg x v, h, by rw [State.reg_setReg, if_pos rfl], s.setReg_frame x v⟩

/-- The same, the value given by its bits. -/
theorem exec_setReg_bits {i : Instr} {s : State} {x : Reg} {v : Byte} {b : Nat → Bool}
    (h : exec i s = .next (s.setReg x v)) (hv : ∀ k, v.getLsbD k = b k) :
    ∃ t : State, exec i s = .next t ∧ (∀ k, (t.reg x).getLsbD k = b k) ∧ RegFrame s t [x] := by
  obtain ⟨t, hexec, rfl, hframe⟩ := exec_setReg_spec h
  exact ⟨t, hexec, hv, hframe⟩

/-- An instruction that writes a result and its flag, as numbers: the flag is written last, so it is what VF holds even where VF is
the destination (R152). -/
theorem exec_setResult_spec {i : Instr} {s : State} {x : Reg} {v : Byte} {f : Bool} {n m : Nat}
    (h : exec i s = .next (s.setResult x v f)) (hv : v.toNat = n) (hf : f.toNat = m) :
    ∃ t : State, exec i s = .next t ∧ (x ≠ 15 → (t.reg x).toNat = n) ∧ (t.reg 15).toNat = m ∧
      RegFrame s t [x, 15] := by
  refine ⟨s.setResult x v f, h, fun hx => ?_, ?_, s.setResult_frame x v f⟩
  · rw [State.reg_setResult, if_neg hx, if_pos rfl, hv]
  · rw [State.reg_setResult, if_pos rfl, flagByte_toNat, hf]

/-! ## The claims -/

/-- Settles O15: each of the three writes one register. -/
theorem loadsWriteTheDestinationOnly : Obligations.LoadsWriteTheDestinationOnly := by
  intro s x y nn
  obtain ⟨t, hexec, hsum, hframe⟩ := exec_setReg_spec (i := .addImm x nn) (s := s) rfl
  exact ⟨exec_setReg_spec rfl, ⟨t, hexec, by rw [hsum, BitVec.toNat_add], hframe⟩, exec_setReg_spec rfl⟩

/-- Settles O16: each of the three writes one register, with a value known bit by bit. -/
theorem logicLeavesTheFlagAlone : Obligations.LogicLeavesTheFlagAlone := fun _ _ _ =>
  ⟨exec_setReg_bits rfl fun _ => BitVec.getLsbD_or, exec_setReg_bits rfl fun _ => BitVec.getLsbD_and,
    exec_setReg_bits rfl fun _ => BitVec.getLsbD_xor⟩

/-- Settles O17: the sum with its carry. -/
theorem addDirWritesSumAndCarry : Obligations.AddDirWritesSumAndCarry := fun _ _ _ =>
  exec_setResult_spec rfl (BitVec.toNat_add _ _) (carryFlag_toNat _ _)

/-- Settles O18: the difference with its no-borrow flag, in both orders of the operands. -/
theorem subtractionsWriteDifferenceAndNoBorrow : Obligations.SubtractionsWriteDifferenceAndNoBorrow := fun _ _ _ =>
  ⟨exec_setResult_spec rfl (byte_sub_toNat _ _) (noBorrowFlag_toNat _ _),
    exec_setResult_spec rfl (byte_sub_toNat _ _) (noBorrowFlag_toNat _ _)⟩

/-- Settles O19: half of Vx with its lowest bit, and its double with its highest. -/
theorem shiftsMoveVxByOneBit : Obligations.ShiftsMoveVxByOneBit := fun _ _ _ =>
  ⟨exec_setResult_spec rfl (byte_shiftRight_one_toNat _) (lowBitFlag_toNat _),
    exec_setResult_spec rfl (byte_shiftLeft_one_toNat _) (highBitFlag_toNat _)⟩

end Sys2Proof.Machine

namespace Sys2Proof.Machine

/-! # Display and index (43_index_draw.md R160 to R167)

DRW is its rows drawn one after another. `RowsDrawn` says what holds after each of them, the byte that the next row will read
included: under `aliased` that byte may be VF, which the row before has just written (R33, R164). -/

/-! ## What a row reads -/

theorem State.viewByte_nineteen (s : State) : s.viewByte 19 = s.reg VF := rfl

theorem State.readByte_of_view {s : State} {a : Nat} (h : s.isView a = true) : s.readByte a = s.viewByte a := if_pos h

theorem DrawFrame.isView {s t : State} (h : DrawFrame s t) (a : Nat) : t.isView a = s.isView a :=
  State.isView_congr (by rw [h.env]) a

theorem DrawFrame.memory {s t : State} (h : DrawFrame s t) : SameMemory s t := .of_eq h.bytes (by rw [h.env])

/-- A read sees none of what a draw may change, the view of VF at address 19 apart. -/
theorem DrawFrame.readByte {s t : State} (h : DrawFrame s t) {a : Nat} (ha : ¬ (s.isView a = true ∧ a = 19)) :
    t.readByte a = s.readByte a := by
  by_cases hv : s.isView a = true
  · have hlt : a < 20 := ((State.isView_iff s a).mp hv).2
    rw [State.readByte_of_view ((h.isView a).trans hv), State.readByte_of_view hv]
    unfold State.viewByte
    split
    case h_1 | h_2 => rw [h.pc]
    case h_3 | h_4 => rw [h.ir]
    case h_5 k =>
      have hk : k ≠ 15 := fun e => ha ⟨hv, by rw [e]⟩
      refine h.regs _ (Fin.ne_of_lt (show k % 16 < 15 from ?_))
      omega
  · exact h.memory.2 a (Bool.eq_false_of_not_eq_true hv)

theorem spriteByte_of_not_vf {s : State} {x y : Reg} {i : Nat}
    (h : ¬ (s.isView (s.ir.toNat + i) = true ∧ s.ir.toNat + i = 19)) : spriteByte s x y i = s.readByte (s.ir.toNat + i) :=
  if_neg fun ⟨hv, ha, _⟩ => h ⟨hv, ha⟩

/-! ## The sprite's bits, row by row -/

/-- One more row adds its own bits, on cells that no row before it reaches (R163). -/
theorem spriteBit_succ (s : State) (x y : Reg) {n : Nat} (hn : n < 32) (c : Col) (r : Row) :
    spriteBit s x y (n + 1) c r =
      (spriteBit s x y n c r ^^ rowBit (s.reg x) (s.reg y) n (spriteByte s x y n) c r) := by
  unfold spriteBit rowBit
  simp only [wrapRow_eq_iff (s.reg y) r hn]
  generalize (r.val + 32 - (s.reg y).toNat % 32) % 32 = d
  rcases Nat.lt_trichotomy d n with hd | rfl | hd
  · simp [hd, hd.ne, Nat.lt_succ_of_lt hd]
  · simp
  · simp [hd.ne', Nat.not_lt.mpr hd.le, Nat.not_lt.mpr hd]

/-- The rows before row `n` leave the cells of row `n` alone. -/
theorem spriteBit_next_row (s : State) (x y : Reg) {n : Nat} (hn : n < 32) (c : Col) :
    spriteBit s x y n c (wrapRow ((s.reg y).toNat + n)) = false := by
  have hd := (wrapRow_eq_iff (s.reg y) _ hn).mp rfl
  unfold spriteBit
  rw [hd]
  simp

/-! ## The rows drawn so far -/

/-- The state in which the first `n` rows of a DRW are drawn. -/
def State.drawn (s : State) (x y : Reg) (n : Nat) : State := drawRows (s.reg x) (s.reg y) s.ir.toNat n 0 s

theorem exec_drw (x y : Reg) (n : Nat) (s : State) : exec (.drw x y n) s = .next (s.drawn x y n) := rfl

theorem State.drawn_frame (s : State) (x y : Reg) (n : Nat) : DrawFrame s (s.drawn x y n) := drawRows_frame ..

theorem State.drawn_run {s : State} {n : Nat} (h : n = 0 ∨ s.ir.toNat + n ≤ 4096) (x y : Reg) :
    (s.drawn x y n).run = s.run := drawRows_run _ _ _ _ _ _ (by omega)

theorem State.drawn_succ {s : State} {n : Nat} (h : s.ir.toNat + n < 4096) (x y : Reg) :
    s.drawn x y (n + 1) =
      drawRow (s.reg x) (s.reg y) n ((s.drawn x y n).readByte (s.ir.toNat + n)) (s.drawn x y n) := by
  unfold State.drawn
  rw [drawRows_add _ _ _ _ _ _ _ (by omega), Nat.zero_add, drawRows_succ h, drawRows]

/-- What holds of the state `t` when `n` rows are drawn: each cell is XORed with the sprite bits of these rows, and the next row will
read its byte of the sprite. -/
structure RowsDrawn (s : State) (x y : Reg) (n : Nat) (t : State) : Prop where
  pixel : ∀ c r, t.pixel c r = (s.pixel c r ^^ spriteBit s x y n c r)
  nextByte : t.readByte (s.ir.toNat + n) = spriteByte s x y n

variable {s : State} {x y : Reg} {n : Nat}

theorem rowsDrawn_zero : RowsDrawn s x y 0 (s.drawn x y 0) where
  pixel c r := by simp [State.drawn, drawRows, spriteBit]
  nextByte := (if_neg fun ⟨_, _, hlt⟩ => Nat.lt_irrefl 0 hlt).symm

/-- After row `n`, VF is that row's last pixel, whose cell stood until then as before the draw (R164). -/
theorem RowsDrawn.vf_succ (h : RowsDrawn s x y n (s.drawn x y n)) (hn : n < 32) (hr : s.ir.toNat + n < 4096) :
    (s.drawn x y (n + 1)).reg VF =
      flagByte ((spriteByte s x y n).getLsbD 0
        && s.pixel (wrapCol ((s.reg x).toNat + 7)) (wrapRow ((s.reg y).toNat + n))) := by
  rw [State.drawn_succ hr, drawRow_vf, h.nextByte, h.pixel, spriteBit_next_row s x y hn, Bool.xor_false, Bool.and_comm]

theorem RowsDrawn.succ (h : RowsDrawn s x y n (s.drawn x y n)) (hn : n < 32) (hr : s.ir.toNat + n < 4096) :
    RowsDrawn s x y (n + 1) (s.drawn x y (n + 1)) where
  pixel c r := by
    rw [State.drawn_succ hr, drawRow_pixel, h.pixel, h.nextByte, spriteBit_succ s x y hn, Bool.xor_assoc]
  nextByte := by
    by_cases hvf : s.isView (s.ir.toNat + (n + 1)) = true ∧ s.ir.toNat + (n + 1) = 19
    · obtain ⟨hview, ha⟩ := hvf
      have hbase : s.ir.toNat + n = 18 := by omega
      have hrow : spriteByte s x y n = s.readByte 18 := by
        rw [spriteByte_of_not_vf (by omega), hbase]
      have hview' : (s.drawn x y (n + 1)).isView 19 = true := by
        rw [(s.drawn_frame x y (n + 1)).isView, ← ha, hview]
      calc (s.drawn x y (n + 1)).readByte (s.ir.toNat + (n + 1))
          = (s.drawn x y (n + 1)).reg VF := by rw [ha, State.readByte_of_view hview', State.viewByte_nineteen]
        _ = _ := h.vf_succ hn hr
        _ = spriteByte s x y (n + 1) := by rw [hrow]; exact (if_pos ⟨hview, ha, n.succ_pos⟩).symm
    · rw [(s.drawn_frame x y (n + 1)).readByte hvf, spriteByte_of_not_vf hvf]

/-- Every number of rows that fits the framebuffer and the memory is drawn as `RowsDrawn` says. -/
theorem rowsDrawn_of_in_range (hn : n ≤ 32) (hr : n = 0 ∨ s.ir.toNat + n ≤ 4096) : RowsDrawn s x y n (s.drawn x y n) := by
  induction n with
  | zero => exact rowsDrawn_zero
  | succ n ih => exact (ih (by omega) (by omega)).succ (by omega) (by omega)

/-- Rows from address 4096 on are not drawn: the first of them halts the core (R165). -/
theorem State.drawn_out_of_range (x y : Reg) (h : 4096 < s.ir.toNat + n) (hn : 0 < n) :
    s.drawn x y n =
      (s.drawn x y (4096 - s.ir.toNat)).raise (.executionFault (s.ir.toNat + (4096 - s.ir.toNat))) := by
  obtain ⟨m, hm⟩ : ∃ m, n = (4096 - s.ir.toNat) + (m + 1) := ⟨n - (4096 - s.ir.toNat) - 1, by omega⟩
  unfold State.drawn
  rw [hm, drawRows_add _ _ _ _ _ _ _ (by omega), Nat.zero_add, drawRows_fault (by omega)]

/-- A draw leaves a sprite as it was, at coordinates other than VF and with no row that is a view of a register. -/
theorem DrawFrame.spriteBit {t : State} (h : DrawFrame s t) (hx : x ≠ VF) (hy : y ≠ VF)
    (hview : ∀ i, i < n → s.isView (s.ir.toNat + i) = false) (c : Col) (r : Row) :
    spriteBit t x y n c r = spriteBit s x y n c r := by
  have hbyte : ∀ i, i < n → spriteByte t x y i = spriteByte s x y i := fun i hi => by
    have hs : ¬ (s.isView (s.ir.toNat + i) = true ∧ s.ir.toNat + i = 19) := by simp [hview i hi]
    rw [spriteByte_of_not_vf hs, spriteByte_of_not_vf (by rwa [h.ir, h.isView]), h.ir, h.readByte hs]
  simp only [Machine.spriteBit, h.regs x hx, h.regs y hy]
  by_cases hi : (r.val + 32 - (s.reg y).toNat % 32) % 32 < n
  · rw [hbyte _ hi]
  · simp only [hi, decide_false, Bool.false_and]

end Sys2Proof.Machine

namespace Sys2Proof.Machine

/-! ## The claims -/

/-- Settles O22: the rows, each XORed on its own cells. -/
theorem drwXorsEachSpriteBitOnce : Obligations.DrwXorsEachSpriteBitOnce := by
  intro s x y n hn hr
  have hframe := s.drawn_frame x y n
  exact ⟨s.drawn x y n, exec_drw x y n s, (rowsDrawn_of_in_range (by omega) hr).pixel,
    fun q hq => hframe.regs q (List.ne_of_not_mem_cons hq), hframe.pc, hframe.ir, hframe.dt,
    hframe.memory, State.drawn_run hr x y, hframe.env⟩

/-- Settles O23: the last row writes VF last. -/
theorem drwFlagIsTheLastPixel : Obligations.DrwFlagIsTheLastPixel := by
  intro s x y n hn
  refine ⟨fun h0 => h0 ▸ rfl, fun hpos hr => ⟨s.drawn x y n, exec_drw x y n s, ?_⟩⟩
  obtain ⟨m, rfl⟩ : ∃ m, n = m + 1 := ⟨n - 1, by omega⟩
  have hdrawn : RowsDrawn s x y m (s.drawn x y m) := rowsDrawn_of_in_range (by omega) (by omega)
  rw [hdrawn.vf_succ (by omega) (by omega), flagByte_toNat, Nat.add_sub_cancel, Bool.toNat, Bool.cond_eq_ite]
  simp only [Bool.and_eq_true]

/-- Settles O24: the rows below 4096 are drawn, and the next one halts the core. -/
theorem drwFaultsAtTheFirstRowOutOfRange : Obligations.DrwFaultsAtTheFirstRowOutOfRange := by
  intro s x y n _ hpos hout
  refine ⟨s.drawn x y (4096 - s.ir.toNat), exec_drw x y _ s, State.drawn_run (by omega) x y, ?_⟩
  rw [exec_drw, State.drawn_out_of_range x y hout hpos, State.raise]

/-- Settles O25: the second draw finds the same sprite, and XOR with it twice is the identity. -/
theorem drawingTwiceRestoresTheFramebuffer : Obligations.DrawingTwiceRestoresTheFramebuffer := by
  intro s t u x y n hn hx hy hr hview ht hu c r
  obtain rfl : s.drawn x y n = t := by injection ht
  have hframe := s.drawn_frame x y n
  obtain rfl : (s.drawn x y n).drawn x y n = u := by injection hu
  have hr' : n = 0 ∨ (s.drawn x y n).ir.toNat + n ≤ 4096 := by rwa [hframe.ir]
  rw [(rowsDrawn_of_in_range (by omega) hr').pixel, hframe.spriteBit hx hy hview,
    (rowsDrawn_of_in_range (by omega) hr).pixel, Bool.xor_assoc, Bool.xor_self, Bool.xor_false]

/-- Settles O20: CLS writes the framebuffer alone. -/
theorem clsClearsEveryCell : Obligations.ClsClearsEveryCell := fun s =>
  ⟨s.clearPixels, rfl, s.pixel_clearPixels, .of_x s.clearPixels_x _, s.clearPixels_pc, s.clearPixels_ir, s.clearPixels_dt,
    .of_eq s.clearPixels_bytes (by rw [s.clearPixels_env]), s.clearPixels_run, s.clearPixels_env⟩

/-- Settles O21: LDI writes I alone, zero-extended. -/
theorem ldiLoadsTheIndexRegister : Obligations.LdiLoadsTheIndexRegister := fun s nnn =>
  ⟨{ s with ir := zext12 nnn }, rfl, zext12_toNat nnn, .of_x rfl _, rfl, rfl, .of_eq rfl rfl, rfl, rfl, rfl⟩

end Sys2Proof.Machine

namespace Sys2Proof.Machine

/-! # Timer and key (44_timer_key.md R180 to R184) -/

/-! ## A tick where the timer counts -/

/-- Counting down is truncated subtraction: 0 stays 0, and from any other value the byte does not wrap (R214). -/
theorem countDown_toNat (dt : Byte) : (countDown dt).toNat = dt.toNat - 1 := by
  unfold countDown
  split
  · next hpos => exact BitVec.toNat_sub_of_le (BitVec.le_def.mpr hpos)
  · next hzero => omega

/-- In Running and in a wait the timer counts (R184, R214). -/
theorem State.onTick_of_counting {s : State} (hr : s.run = .running ∨ ∃ r, s.run = .waitKey r) :
    s.onTick = { s with dt := countDown s.dt } := by
  unfold State.onTick
  obtain hr | ⟨r, hr⟩ := hr <;> rw [hr]

/-- In a wait a pending `Tick` is never refused (D10): it is taken, and the timer counts. -/
theorem step_of_tick_of_waiting {s : State} {r : Reg} {l : List Event} (hr : s.run = .waitKey r)
    (hp : s.env.pending = .tick :: l) : step s = .next { s.take .tick with dt := countDown s.dt } := by
  have hne : s.run ≠ .running := by rw [hr]; exact RunState.noConfusion
  have htick : (s.take .tick).onTick = { s.take .tick with dt := countDown s.dt } :=
    State.onTick_of_counting (.inr ⟨r, hr⟩)
  rw [step_of_tick_of_not_running (nextEvent_of_tick hp) hne, applyEvent, htick]

/-- Taking the oldest pending event leaves the ones behind it. -/
theorem State.take_pending_of_cons {s : State} {ev : Event} {l : List Event} (hp : s.env.pending = ev :: l)
    (hq : ev ≠ .quit) : (s.take ev).env.pending = l := by
  rw [State.take_env, (scheduleAfter_pending hq).1, hp, List.erase_cons_head]

/-- Settles O30, by induction on the number of ticks: each is taken, counts, and leaves a wait that faces the others. -/
theorem ticksDuringAWaitAddUp : Obligations.TicksDuringAWaitAddUp := by
  intro s r n rest
  induction n generalizing s with
  | zero => exact fun hr hp => ⟨s, rfl, rfl, hr, rfl, rfl, rfl, rfl, rfl, hp⟩
  | succ n ih =>
    intro hr hp
    have hcons : s.env.pending = .tick :: (List.replicate n .tick ++ rest) := hp
    obtain ⟨t, hrun, hdt, hrest⟩ :=
      ih { s.take .tick with dt := countDown s.dt } hr (State.take_pending_of_cons hcons Event.noConfusion)
    refine ⟨t, (core_run_succ (step_of_tick_of_waiting hr hcons) n).trans hrun, ?_, hrest⟩
    rw [hdt, countDown_toNat, Nat.sub_sub, Nat.add_comm]

/-! ## The three instructions -/

/-- Settles O26: LDVDT writes one register, and LDDT writes the timer alone. -/
theorem timerTransfersCopyOneByte : Obligations.TimerTransfersCopyOneByte := fun s x =>
  ⟨exec_setReg_spec rfl, { s with dt := s.reg x }, rfl, rfl, .of_x rfl _, rfl, rfl, .of_eq rfl rfl, rfl, rfl, rfl⟩

/-- Settles O27: LDK writes the run state alone. -/
theorem ldkEntersTheWait : Obligations.LdkEntersTheWait := fun s x =>
  ⟨{ s with run := .waitKey x }, rfl, rfl, .of_x rfl _, rfl, rfl, rfl, .of_eq rfl rfl, rfl, rfl⟩

/-! ## A key -/

theorem zext4_toNat (k : BitVec 4) : (zext4 k).toNat = k.toNat := BitVec.toNat_setWidth_of_le (by decide)

/-- A key ends a wait: the awaited register receives its code, and the core runs on (R182). -/
theorem State.onKey_of_waiting {s : State} {r : Reg} (hr : s.run = .waitKey r) (k : BitVec 4) :
    s.onKey k = { s.setReg r (zext4 k) with run := .running } := by
  unfold State.onKey
  rw [hr]

/-- Settles O28: the key is taken from the schedule; in a wait it writes the awaited register, and elsewhere it is dropped. -/
theorem keyEndsTheWait : Obligations.KeyEndsTheWait := by
  intro s k hnext
  refine ⟨(s.take (.key k)).onKey k, step_of_event hnext Event.noConfusion, fun r hr => ?_, fun hr => ?_⟩
  · rw [State.onKey_of_waiting (s := s.take _) hr]
    have hframe := (s.take (.key k)).setReg_frame r (zext4 k)
    have hreg : ((s.take (.key k)).setReg r (zext4 k)).reg r = zext4 k := by rw [State.reg_setReg, if_pos rfl]
    exact ⟨(congrArg BitVec.toNat hreg).trans (zext4_toNat k), rfl, hframe.regs, rfl, rfl, rfl, rfl, rfl⟩
  · rw [State.onKey_of_not_waiting (s := s.take _) hr]
    exact .take s _

end Sys2Proof.Machine

namespace Sys2Proof.Machine

/-! # Faults, halts and the host's events (60_exceptions.md R200 to R221) -/

/-- Settles O32: every instruction answers one of the shapes of `Effect`, and `Effect.run_cases` says what each does to `run`. -/
theorem everyInstructionAnswersANextState : Obligations.EveryInstructionAnswersANextState := by
  intro i s
  obtain ⟨t, hexec, heff⟩ := exec_effect i s
  exact ⟨t, hexec, heff.run_cases⟩

/-! ## What `Status` shows (R200, R205) -/

theorem State.status_of_not_halted {s : State} (hr : ∀ z, s.run ≠ .halted z) : s.status = ⟨s.run, 0, none, none⟩ := by
  unfold State.status
  cases e : s.run with
  | halted z => exact absurd e (hr z)
  | loading | running | waitKey => rfl

theorem State.status_of_sentinel {s : State} (hr : s.run = .halted .sentinel) : s.status = ⟨s.run, 1, none, none⟩ := by
  unfold State.status
  rw [hr]
  rfl

theorem State.status_of_decodeError {s : State} {w : Word} {a : Nat} (hr : s.run = .halted (.decodeError w a)) :
    s.status = ⟨s.run, 2, some w, some a⟩ := by
  unfold State.status
  rw [hr]
  rfl

theorem State.status_of_executionFault {s : State} {a : Nat} (hr : s.run = .halted (.executionFault a)) :
    s.status = ⟨s.run, 3, none, some a⟩ := by
  unfold State.status
  rw [hr]
  rfl

/-- Settles O34, by the four kinds of run state that `Status` tells apart. -/
theorem statusShowsTheHalt : Obligations.StatusShowsTheHalt := by
  refine fun s => ⟨rfl, fun hr => ?_, fun hr => ?_, fun w a hr => ?_, fun a hr => ?_⟩
  · rw [State.status_of_not_halted hr]; exact ⟨rfl, rfl, rfl⟩
  · rw [State.status_of_sentinel hr]; exact ⟨rfl, rfl, rfl⟩
  · rw [State.status_of_decodeError hr]; exact ⟨rfl, rfl, rfl⟩
  · rw [State.status_of_executionFault hr]; exact ⟨rfl, rfl, rfl⟩

/-! ## The block from one state to the next -/

theorem SameBlock.refl (s : State) : SameBlock s s := ⟨rfl, rfl, rfl, rfl, rfl, rfl, rfl⟩

theorem SameBlock.trans {s t u : State} (h : SameBlock s t) (h' : SameBlock t u) : SameBlock s u :=
  ⟨h'.x.trans h.x, h'.pc.trans h.pc, h'.ir.trans h.ir, h'.dt.trans h.dt, h'.bytes.trans h.bytes, h'.fb.trans h.fb,
    h'.run.trans h.run⟩

/-- The timer is lowered by 1, to 0 at the least, and the rest of the block is the same (R214). -/
structure CountsDown (s t : State) : Prop where
  dt : t.dt.toNat = s.dt.toNat - 1
  x : t.x = s.x
  pc : t.pc = s.pc
  ir : t.ir = s.ir
  bytes : t.bytes = s.bytes
  fb : t.fb = s.fb
  run : t.run = s.run

theorem CountsDown.of_countDown {s t : State} (h : SameBlock s t) : CountsDown s { t with dt := countDown s.dt } :=
  ⟨countDown_toNat s.dt, h.x, h.pc, h.ir, h.bytes, h.fb, h.run⟩

theorem CountsDown.sameBlock {s t u : State} (h : CountsDown s t) (h' : SameBlock t u) : CountsDown s u :=
  ⟨by rw [h'.dt, h.dt], h'.x.trans h.x, h'.pc.trans h.pc, h'.ir.trans h.ir, h'.bytes.trans h.bytes, h'.fb.trans h.fb,
    h'.run.trans h.run⟩

/-! ## Steps that only take their event from the schedule -/

/-- Outside Loading and a wait, no event but `Reset`, `Cycle` and `Tick` has an effect (R206, D15). -/
theorem applyEvent_of_inert {s : State} {ev : Event} (hload : s.run ≠ .loading) (hwait : ∀ r, s.run ≠ .waitKey r)
    (hreset : ev ≠ .reset) (hcycle : ev ≠ .cycle) (htick : ev ≠ .tick) : applyEvent ev s = .next s := by
  cases ev with
  | reset => exact absurd rfl hreset
  | cycle => exact absurd rfl hcycle
  | tick => exact absurd rfl htick
  | load a v => exact congrArg _ (State.onLoad_of_not_loading hload a v)
  | start => exact congrArg _ (State.onStart_of_not_loading hload)
  | key k => exact congrArg _ (State.onKey_of_not_waiting hwait k)
  | fbRead | status | quit => rfl

/-- In Running no event but `Reset`, `Cycle` and `Tick` has an effect (R206). -/
theorem step_of_running_inert {s : State} {ev : Event} (hnext : s.nextEvent = some ev) (hr : s.run = .running)
    (hreset : ev ≠ .reset) (hcycle : ev ≠ .cycle) (htick : ev ≠ .tick) : step s = .next (s.take ev) := by
  rw [step_of_event hnext htick]
  exact applyEvent_of_inert (by simp [hr]) (by simp [hr]) hreset hcycle htick

/-- In Halted no event but `Reset` has an effect (R211). -/
theorem step_of_halted {s : State} {ev : Event} {z : HaltReason} (hnext : s.nextEvent = some ev)
    (hr : s.run = .halted z) (hreset : ev ≠ .reset) : step s = .next (s.take ev) := by
  have hrun : s.run ≠ .running := by simp [hr]
  by_cases htick : ev = .tick
  · subst htick
    rw [step_of_tick_of_not_running hnext hrun]
    exact congrArg _ (State.onTick_of_idle (s := s.take .tick) (.inr ⟨z, hr⟩))
  rw [step_of_event hnext htick]
  by_cases hcycle : ev = .cycle
  · subst hcycle
    exact cycle_of_not_running hrun
  · exact applyEvent_of_inert (by simp [hr]) (by simp [hr]) hreset hcycle htick

/-- Settles O39: the event is taken from the schedule, which is no part of the block. -/
theorem haltedIsTerminal : Obligations.HaltedIsTerminal := fun s _ ev hnext hr hev =>
  ⟨s.take ev, step_of_halted hnext hr hev, .take s ev⟩

/-! ## A tick -/

/-- A `Tick` that is no second one of a slice in Running is delivered (R214, R247). -/
theorem step_of_tick {s : State} (hnext : s.nextEvent = some .tick) (hfirst : s.run = .running → s.env.ticked = false) :
    step s = .next (s.take .tick).onTick := by
  by_cases hr : s.run = .running
  · have hsecond : ¬ (Event.tick = .tick ∧ s.secondTick = true) := by simp [State.secondTick, hfirst hr]
    unfold step
    rw [hnext]
    exact if_neg hsecond
  · exact step_of_tick_of_not_running hnext hr

/-- Where the timer counts, a delivered `Tick` is taken and counts it down (R184, R214). -/
theorem State.onTick_take_countsDown {s : State} (hr : s.run = .running ∨ ∃ r, s.run = .waitKey r) :
    CountsDown s (s.take .tick).onTick := by
  have htick : (s.take .tick).onTick = { s.take .tick with dt := countDown s.dt } := State.onTick_of_counting hr
  rw [htick]
  exact .of_countDown (.take s .tick)

/-- Elsewhere it is only taken (D11). -/
theorem State.sameBlock_onTick_take {s : State} (hr : s.run = .loading ∨ ∃ z, s.run = .halted z) :
    SameBlock s (s.take .tick).onTick := by
  rw [State.onTick_of_idle (s := s.take .tick) hr]
  exact .take s .tick

/-- A `Tick` writes the timer at most. -/
theorem State.onTick_rest (s : State) :
    s.onTick.x = s.x ∧ s.onTick.pc = s.pc ∧ s.onTick.ir = s.ir ∧ s.onTick.bytes = s.bytes ∧ s.onTick.fb = s.fb ∧
      s.onTick.run = s.run ∧ s.onTick.env = s.env := by
  obtain e | e := s.onTick_cases <;> rw [e] <;> exact ⟨rfl, rfl, rfl, rfl, rfl, rfl, rfl⟩

/-- Settles O29: the tick is delivered; where the timer counts it is lowered, and elsewhere the block is the same. -/
theorem tickCountsDownToZero : Obligations.TickCountsDownToZero := by
  intro s hnext hfirst
  obtain ⟨hx, hpc, hir, hbytes, hfb, hrun, -⟩ := (s.take .tick).onTick_rest
  exact ⟨_, step_of_tick hnext hfirst, fun hr => (State.onTick_take_countsDown hr).dt,
    fun hr => (State.sameBlock_onTick_take hr).dt, hx, hpc, hir, hbytes, hfb, hrun⟩

/-- Settles O38: of the events left, a `Tick` writes the timer at most, and the others are only taken. -/
theorem outsideNeverDivertsARunningProgram : Obligations.OutsideNeverDivertsARunningProgram := by
  intro s t ev hnext hr hcycle hreset hstep
  by_cases htick : ev = .tick
  · subst htick
    obtain ⟨ev, hnext', -, happly⟩ := step_next hstep
    obtain rfl : Event.tick = ev := Option.some.inj (hnext.symm.trans hnext')
    cases happly
    obtain ⟨hx, hpc, hir, hbytes, hfb, hrun, -⟩ := (s.take .tick).onTick_rest
    exact ⟨hx, hpc, hir, hbytes, hfb, hrun.trans hr, fun _ => rfl⟩
  · rw [step_of_running_inert hnext hr hreset hcycle htick] at hstep
    cases hstep
    exact ⟨rfl, rfl, rfl, rfl, rfl, hr, fun hdt => absurd rfl hdt⟩

/-- Settles O37: the pacing gives the `Tick`, and, once that is taken, the `Cycle`. -/
theorem nominalScheduleTicksBeforeTheCycle : Obligations.NominalScheduleTicksBeforeTheCycle := by
  intro s hpending hpacing hticked hr
  have hnext : s.nextEvent = some .tick := by rw [nextEvent_of_nil hpending, hpacing, hticked]; rfl
  have hdown : CountsDown s (s.take .tick).onTick := State.onTick_take_countsDown (.inl hr)
  obtain ⟨-, -, -, -, -, -, henv⟩ := (s.take .tick).onTick_rest
  have hcycle : (s.take .tick).onTick.nextEvent = some .cycle := by
    rw [nextEvent_of_nil (by rw [henv]; simp [scheduleAfter, hpending]), henv]
    simp [scheduleAfter, hpacing]
  exact ⟨hnext, _, step_of_tick hnext fun _ => hticked, hcycle, hdown.run.trans hr, hdown.pc, hdown.x, hdown.dt⟩

/-! ## The end of the events (R221) -/

theorem nextEvent_take_quit (s : State) : (s.take .quit).nextEvent = none := nextEvent_of_nil (s := s.take .quit) rfl

theorem step_take_quit (s : State) : step (s.take .quit) = .fault .hostQuit := by
  unfold step
  rw [nextEvent_take_quit]

/-- Settles O35: `Quit` has no effect but on the schedule, which it ends. -/
theorem quitEndsTheEvents : Obligations.QuitEndsTheEvents := fun s hnext =>
  ⟨s.take .quit, step_of_event hnext Event.noConfusion, .take s .quit, step_take_quit s⟩

/-! ## Which event comes next -/

/-- The nominal schedule owes a `Tick` when none has come and neither a `Tick` nor the `Cycle` is listed. -/
theorem State.owesTick_iff {s : State} : s.owesTick = true ↔
    s.env.pacing = .nominal ∧ s.env.ticked = false ∧ Event.tick ∉ s.env.pending ∧ Event.cycle ∉ s.env.pending := by
  simp [State.owesTick, and_assoc]

/-- The inversion form of `nextEvent_cases`: what comes next is pending in the slice and in its turn, or is the `Tick` the nominal
schedule owes, or with nothing pending and no `Tick` owed is the pacing's `Cycle`. -/
theorem nextEvent_eq_some {s : State} {ev : Event} (h : s.nextEvent = some ev) :
    (ev ∈ sliceOf s.run s.env.pending ∧ (∀ a ∈ sliceOf s.run s.env.pending, precedes a ev = false) ∧
        (s.owesTick = true → precedes .tick ev = false)) ∨
      (ev = .tick ∧ s.owesTick = true) ∨ (ev = .cycle ∧ s.owesTick = false ∧ s.env.pending = []) := by
  obtain ⟨e, he, hturn⟩ | ⟨he, ho⟩ | ⟨hnil, ⟨hpacing, he⟩ | ⟨hpacing, he⟩ | ⟨-, he⟩⟩ := nextEvent_cases s <;> rw [he] at h
  · cases h; exact .inl hturn
  · cases h; exact .inr (.inl ⟨rfl, ho⟩)
  · cases ht : s.env.ticked <;> rw [ht] at h <;> cases h
    · exact .inr (.inl ⟨rfl, by simp [State.owesTick_iff, hpacing, ht, hnil]⟩)
    · exact .inr (.inr ⟨rfl, by simp [State.owesTick, ht], hnil⟩)
  · cases h; exact .inr (.inr ⟨rfl, by simp [State.owesTick, hpacing], hnil⟩)
  · cases h

/-- What comes next is pending, or is one of the events the pacing gives. -/
theorem nextEvent_pending_or_paced {s : State} {ev : Event} (h : s.nextEvent = some ev) :
    ev ∈ s.env.pending ∨ ev = .tick ∨ ev = .cycle := by
  obtain ⟨hmem, -⟩ | ⟨e, -⟩ | ⟨e, -⟩ := nextEvent_eq_some h
  · exact .inl (mem_of_mem_sliceOf hmem)
  · exact .inr (.inl e)
  · exact .inr (.inr e)

/-- While the host sends events there is a next one. -/
theorem exists_nextEvent {s : State} (h : s.env.pacing ≠ .stopped) : ∃ ev, s.nextEvent = some ev := by
  obtain ⟨ev, he, -⟩ | ⟨he, -⟩ | ⟨-, ⟨-, he⟩ | ⟨-, he⟩ | ⟨hstop, -⟩⟩ := nextEvent_cases s
  · exact ⟨ev, he⟩
  · exact ⟨.tick, he⟩
  · cases ht : s.env.ticked <;> rw [ht] at he <;> exact ⟨_, he⟩
  · exact ⟨.cycle, he⟩
  · exact absurd hstop h

/-! ## A finished program (R203, R248) -/

/-- The invariant of a finished program: halted with `Sentinel`, no `Reset` or `Quit` pending, and the host still sending. -/
structure State.AtRest (s : State) : Prop where
  run : s.run = .halted .sentinel
  no_reset : Event.reset ∉ s.env.pending
  no_quit : Event.quit ∉ s.env.pending
  paced : s.env.pacing ≠ .stopped

/-- A step of a finished program takes an event from the schedule and leaves it finished. -/
theorem State.AtRest.step {s : State} (h : s.AtRest) :
    ∃ t, Machine.step s = .next t ∧ SameBlock s t ∧ t.AtRest := by
  obtain ⟨ev, hnext⟩ := exists_nextEvent h.paced
  have hev : ev ≠ .reset ∧ ev ≠ .quit := by
    obtain hmem | rfl | rfl := nextEvent_pending_or_paced hnext
    · exact ⟨fun e => h.no_reset (e ▸ hmem), fun e => h.no_quit (e ▸ hmem)⟩
    · exact ⟨Event.noConfusion, Event.noConfusion⟩
    · exact ⟨Event.noConfusion, Event.noConfusion⟩
  obtain ⟨hreset, hquit⟩ := hev
  obtain ⟨hpending, hpacing⟩ := scheduleAfter_pending (e := s.env) (r := s.run) hquit
  refine ⟨s.take ev, step_of_halted hnext h.run hreset, .take s ev, h.run, ?_, ?_, ?_⟩
  · rw [State.take_env, hpending]; exact fun hmem => h.no_reset (List.mem_of_mem_erase hmem)
  · rw [State.take_env, hpending]; exact fun hmem => h.no_quit (List.mem_of_mem_erase hmem)
  · rw [State.take_env, hpacing]; exact h.paced

/-- Any number of steps of a finished program leave it finished, with the same block. -/
theorem State.AtRest.core_run {s : State} (h : s.AtRest) (k : Nat) :
    ∃ t, Sys2Proof.core.run k s = .next t ∧ SameBlock s t ∧ t.AtRest := by
  induction k generalizing s with
  | zero => exact ⟨s, rfl, .refl s, h⟩
  | succ k ih =>
    obtain ⟨u, hstep, hblock, hu⟩ := h.step
    obtain ⟨t, hrun, hblock', ht⟩ := ih hu
    exact ⟨t, (core_run_succ hstep k).trans hrun, hblock.trans hblock', ht⟩

theorem State.AtRest.finished {s : State} (h : s.AtRest) : s.finished = true := decide_eq_true h.run

theorem State.AtRest.not_faulted {s : State} (h : s.AtRest) : s.faulted = false := by
  unfold State.faulted
  rw [h.run]

/-- Settles O40: a finished program is at rest, and each number of steps leaves it so. -/
theorem finishedProgramsStayFinished : Obligations.FinishedProgramsStayFinished := by
  intro s hfinished hreset hquit hpacing k
  have hrest : s.AtRest := ⟨of_decide_eq_true hfinished, hreset, hquit, hpacing⟩
  refine ⟨fun j _ => ?_, ?_⟩
  · obtain ⟨t, hrun, -, ht⟩ := hrest.core_run j
    exact ⟨t, hrun, ht.not_faulted⟩
  · obtain ⟨t, hrun, hblock, ht⟩ := hrest.core_run k
    exact ⟨t, hrun, hblock, ht.finished⟩

/-! # The order of events within a slice (60_exceptions.md R208) -/

/-! ## What the order says of the next event -/

/-- A `Cycle` precedes nothing. -/
@[simp] theorem not_cycle_precedes (b : Event) : precedes .cycle b = false := by cases b <;> rfl

/-- No pending event of the slice precedes the one that comes next. -/
theorem not_precedes_nextEvent {s : State} {ev : Event} (h : s.nextEvent = some ev) :
    ∀ a ∈ sliceOf s.run s.env.pending, precedes a ev = false := by
  obtain ⟨-, hfirst, -⟩ | ⟨rfl, -⟩ | ⟨-, -, hnil⟩ := nextEvent_eq_some h
  · exact hfirst
  · exact fun a _ => not_precedes_tick a
  · rw [hnil]; exact fun a ha => nomatch ha

/-- While the schedule owes a `Tick`, nothing comes that a `Tick` precedes. -/
theorem not_tick_precedes_of_owesTick {s : State} {ev : Event} (h : s.nextEvent = some ev) (ho : s.owesTick = true) :
    precedes .tick ev = false := by
  obtain ⟨-, -, howes⟩ | ⟨rfl, -⟩ | ⟨-, hnot, -⟩ := nextEvent_eq_some h
  · exact howes ho
  · rfl
  · rw [ho] at hnot; cases hnot

/-- What comes next and is neither a `Tick` nor a `Cycle` is a pending event of the slice. -/
theorem mem_sliceOf_of_nextEvent {s : State} {ev : Event} (h : s.nextEvent = some ev) (htick : ev ≠ .tick)
    (hcycle : ev ≠ .cycle) : ev ∈ sliceOf s.run s.env.pending := by
  obtain ⟨hmem, -⟩ | ⟨e, -⟩ | ⟨e, -⟩ := nextEvent_eq_some h
  · exact hmem
  · exact absurd e htick
  · exact absurd e hcycle

/-- What comes next and precedes some event is a pending event of the slice, or the `Tick` the nominal schedule owes. -/
theorem mem_sliceOf_or_owed_of_precedes {s : State} {ev b : Event} (h : s.nextEvent = some ev)
    (hp : precedes ev b = true) : ev ∈ sliceOf s.run s.env.pending ∨ (ev = .tick ∧ s.owesTick = true) := by
  obtain ⟨hmem, -⟩ | howed | ⟨rfl, -⟩ := nextEvent_eq_some h
  · exact .inl hmem
  · exact .inr howed
  · rw [not_cycle_precedes] at hp; cases hp

/-! ## What comes after an event -/

/-- An event that does not end its slice leaves it open whether the schedule owes the slice a `Tick`. -/
theorem State.owesTick_take {s : State} {ev : Event} (htick : ev ≠ .tick) (hquit : ev ≠ .quit)
    (hends : endsSlice s.run ev = false) : (s.take ev).owesTick = s.owesTick := by
  have hcycle : ev ≠ .cycle := fun e => by subst e; cases hends
  have hticked : (scheduleAfter s.env s.run ev).ticked = s.env.ticked := by
    cases ev with
    | tick => exact absurd rfl htick
    | quit => rfl
    | _ => simp [scheduleAfter, hends]
  obtain ⟨hpending, hpacing⟩ := scheduleAfter_pending (e := s.env) (r := s.run) hquit
  rw [Bool.eq_iff_iff, State.owesTick_iff, State.owesTick_iff, State.take_env, hpending, hpacing, hticked,
    List.mem_erase_of_ne htick.symm, List.mem_erase_of_ne hcycle.symm]

/-- Once an event is taken that did not end its slice, the next one does not precede it: it stood in the slice already, or is a
`Tick` that was owed already. -/
theorem not_precedes_of_take {s : State} {ev ev' : Event} (h : s.nextEvent = some ev) (hquit : ev ≠ .quit)
    (hends : endsSlice s.run ev = false) (h' : (s.take ev).nextEvent = some ev') : precedes ev' ev = false := by
  by_cases htick : ev = .tick
  · rw [htick]; exact not_precedes_tick ev'
  have hcycle : ev ≠ .cycle := fun e => by subst e; cases hends
  have hmem : ev ∈ sliceOf s.run s.env.pending := mem_sliceOf_of_nextEvent h htick hcycle
  refine Bool.eq_false_iff.mpr fun hp => Bool.eq_false_iff.mp ?_ hp
  obtain hslice | ⟨rfl, ho⟩ := mem_sliceOf_or_owed_of_precedes h' hp
  · rw [State.take_run, State.take_env, (scheduleAfter_pending hquit).1, sliceOf_erase hmem hends] at hslice
    exact not_precedes_nextEvent h ev' (List.mem_of_mem_erase hslice)
  · rw [State.owesTick_take htick hquit hends] at ho
    exact not_tick_precedes_of_owesTick h ho

/-- A key that does not end its slice meets no wait, and is dropped (R118). -/
theorem applyEvent_key_of_not_endsSlice {s : State} {k : BitVec 4} (hends : endsSlice s.run (.key k) = false) :
    applyEvent (.key k) s = .next s :=
  congrArg _ (State.onKey_of_not_waiting (fun r hr => by rw [hr] at hends; cases hends) k)

/-- The event after one that did not end its slice does not precede it. -/
theorem not_precedes_of_step {s t : State} {ev ev' : Event} (h : s.nextEvent = some ev)
    (hends : endsSlice s.run ev = false) (hstep : step s = .next t) (h' : t.nextEvent = some ev') :
    precedes ev' ev = false := by
  cases ev with
  | reset | load | start | status => exact not_precedes_unranked rfl
  | tick => exact not_precedes_tick ev'
  | cycle => cases hends
  | fbRead x y =>
    rw [step_of_event h Event.noConfusion] at hstep
    cases hstep
    exact not_precedes_of_take h Event.noConfusion hends h'
  | key k =>
    rw [step_of_event h Event.noConfusion, applyEvent_key_of_not_endsSlice (s := s.take _) hends] at hstep
    cases hstep
    exact not_precedes_of_take h Event.noConfusion hends h'
  | quit =>
    rw [step_of_event h Event.noConfusion] at hstep
    cases hstep
    rw [nextEvent_take_quit] at h'
    cases h'

/-- Settles O55: nothing earlier is pending when an event comes, nothing earlier follows it, and an owed `Tick` keeps reads, keys
and `Quit` waiting. -/
theorem eventsOfASliceComeInOrder : Obligations.EventsOfASliceComeInOrder := by
  intro s ev hnext
  refine ⟨not_precedes_nextEvent hnext, fun t ev' hends hstep hnext' => not_precedes_of_step hnext hends hstep hnext',
    fun hnominal hticked htick hcycle => ?_⟩
  have hlate : precedes .tick ev = false :=
    not_tick_precedes_of_owesTick hnext (State.owesTick_iff.mpr ⟨hnominal, hticked, htick, hcycle⟩)
  refine ⟨?_, fun x y => ?_, fun k => ?_⟩ <;> rintro rfl <;> cases hlate

/-! ## A slice pending in any order -/

/-- In Running the events of `m`, which stand in the order of R208, are pending in some order before a `Cycle`, and `rest`
after it. -/
structure State.FacesSlice (s : State) (m rest : List Event) : Prop where
  run : s.run = .running
  sorted : (m ++ [Event.cycle]).Pairwise (precedes · · = true)
  pending : ∃ l, l.Perm m ∧ s.env.pending = l ++ .cycle :: rest

/-- What precedes a `Cycle` does not end a slice in Running: only a key that ends a wait would. -/
theorem not_endsSlice_of_precedes_cycle {a : Event} (h : precedes a .cycle = true) : endsSlice .running a = false := by
  cases a with
  | tick | fbRead | key | quit => rfl
  | reset | load | start | cycle | status => cases h

/-- A slice reaches to its `Cycle` when nothing before that ends it. -/
theorem sliceOf_append_cycle {r : RunState} {l : List Event} (h : ∀ a ∈ l, endsSlice r a = false) (rest : List Event) :
    sliceOf r (l ++ .cycle :: rest) = l ++ [.cycle] := by
  induction l with
  | nil => rfl
  | cons a l ih =>
    obtain ⟨ha, hl⟩ := List.forall_mem_cons.mp h
    rw [List.cons_append, sliceOf, ha, if_neg Bool.false_ne_true, ih hl, List.cons_append]

section
variable {s : State} {ev : Event} {m rest : List Event}

/-- Of a slice pending in any order, the event comes next that the order puts first. -/
theorem State.FacesSlice.nextEvent (h : s.FacesSlice (ev :: m) rest) : s.nextEvent = some ev := by
  obtain ⟨hr, hsorted, l, hperm, hpending⟩ := h
  obtain ⟨hlead, -⟩ := List.pairwise_cons.mp hsorted
  obtain ⟨-, -, hbefore⟩ := List.pairwise_append.mp hsorted
  have hcycle : Event.cycle ∈ s.env.pending := by simp [hpending]
  have hslice : sliceOf s.run s.env.pending = l ++ [.cycle] := by
    rw [hr, hpending]
    exact sliceOf_append_cycle
      (fun a ha => not_endsSlice_of_precedes_cycle (hbefore a (hperm.mem_iff.mp ha) .cycle List.mem_cons_self)) rest
  have hmem : ∀ a, a ∈ l ++ [.cycle] ↔ a = ev ∨ a ∈ m ++ [.cycle] := fun a => by
    simp [hperm.mem_iff, or_assoc]
  obtain ⟨e, he, hin, hfirst, -⟩ | ⟨-, ho⟩ | ⟨hnil, -⟩ := nextEvent_cases s
  · rw [hslice] at hin hfirst
    obtain rfl | hlater := (hmem e).mp hin
    · exact he
    · have hnot : precedes ev e = false := hfirst ev ((hmem ev).mpr (.inl rfl))
      rw [hlead e hlater] at hnot
      cases hnot
  · obtain ⟨-, -, -, hnone⟩ := State.owesTick_iff.mp ho
    exact absurd hcycle hnone
  · rw [hnil] at hcycle; cases hcycle

/-- Taking the first event of a slice leaves the others. -/
theorem State.FacesSlice.take (h : s.FacesSlice (ev :: m) rest) (hquit : ev ≠ .quit) :
    (s.take ev).FacesSlice m rest := by
  obtain ⟨hr, hsorted, l, hperm, hpending⟩ := h
  refine ⟨hr, hsorted.of_cons, l.erase ev, ?_, ?_⟩
  · simpa using hperm.erase ev
  · rw [State.take_env, (scheduleAfter_pending hquit).1, hpending,
      List.erase_append_left _ (hperm.mem_iff.mpr List.mem_cons_self)]

/-- A slice whose events are all taken leaves its `Cycle`. -/
theorem State.FacesSlice.pending_of_nil (h : s.FacesSlice [] rest) : s.env.pending = .cycle :: rest := by
  obtain ⟨-, -, l, hperm, hpending⟩ := h
  rwa [hperm.eq_nil] at hpending

/-- The slice's `Tick` is delivered first, and lowers the timer for the events behind it. -/
theorem State.FacesSlice.step_tick (h : s.FacesSlice (.tick :: m) rest) (hticked : s.env.ticked = false) :
    ∃ t, step s = .next t ∧ t.FacesSlice m rest ∧ CountsDown s t := by
  have hdown : CountsDown s (s.take .tick).onTick := State.onTick_take_countsDown (.inl h.run)
  obtain ⟨-, -, -, -, -, -, henv⟩ := (s.take .tick).onTick_rest
  obtain ⟨-, hsorted, hpending⟩ := h.take Event.noConfusion
  exact ⟨_, step_of_tick h.nextEvent fun _ => hticked, ⟨hdown.run.trans h.run, hsorted, henv ▸ hpending⟩, hdown⟩

/-- Every other event before the `Cycle` is only taken. -/
theorem State.FacesSlice.step_inert (h : s.FacesSlice (ev :: m) rest) (htick : ev ≠ .tick) :
    step s = .next (s.take ev) := by
  obtain ⟨-, -, hbefore⟩ := List.pairwise_append.mp h.sorted
  have hprec : precedes ev .cycle = true := hbefore ev List.mem_cons_self .cycle List.mem_cons_self
  refine step_of_running_inert h.nextEvent h.run ?_ ?_ htick <;> rintro rfl <;> cases hprec

end

/-- Settles O56: the slice is faced in its order; the `Tick` lowers the timer, and the events after it are only taken. -/
theorem aShuffledSliceRunsInOrder : Obligations.AShuffledSliceRunsInOrder := by
  intro s x y k l rest hr hticked hpending
  refine ⟨fun hperm => ?_, fun hperm => ?_⟩
  · have hslice : s.FacesSlice [.tick, .fbRead x y, .key k] rest :=
      ⟨hr, by simp [precedes, sliceRank], l, hperm, hpending⟩
    obtain ⟨u, hstep, hu, hdown⟩ := hslice.step_tick hticked
    have hkey := hu.take Event.noConfusion
    have hdone := hkey.take Event.noConfusion
    have hend := hdown.sameBlock ((SameBlock.take u (.fbRead x y)).trans (.take _ (.key k)))
    refine ⟨_, ?_, nextEvent_of_cycle hdone.pending_of_nil, hdone.pending_of_nil, hend.dt, hend.x, hend.pc, hend.ir,
      hend.bytes, hend.fb, hdone.run⟩
    rw [core_run_succ hstep, core_run_succ (hu.step_inert Event.noConfusion),
      core_run_succ (hkey.step_inert Event.noConfusion)]
    rfl
  · have hslice : s.FacesSlice [.tick, .quit] rest := ⟨hr, by simp [precedes, sliceRank], l, hperm, hpending⟩
    obtain ⟨u, hstep, hu, hdown⟩ := hslice.step_tick hticked
    have hend := hdown.sameBlock (.take u .quit)
    refine ⟨u.take .quit, ?_, step_take_quit u, hend.dt, hend.x, hend.pc, hend.ir, hend.bytes, hend.fb, hu.run⟩
    rw [core_run_succ hstep, core_run_succ (hu.step_inert Event.noConfusion)]
    rfl

end Sys2Proof.Machine

namespace Sys2Proof.Machine

/-! # Reset, loading, start (70_reset_and_hazards.md R240 to R243) -/

/-! ## Reset -/

/-- `Reset` builds the zeroed machine, whatever the state; the open parameters are no part of the block (R240). -/
theorem State.sameBlock_onReset (s : State) : SameBlock State.reset s.onReset := ⟨rfl, rfl, rfl, rfl, rfl, rfl, rfl⟩

theorem State.viewByte_reset (a : Nat) : State.reset.viewByte a = 0#8 := by
  unfold State.viewByte
  split
  · rfl
  · rfl
  · rfl
  · rfl
  · exact State.reg_reset _

/-- On the block after reset every byte reads 0, be it a cell or a view of a register (R32, R33). -/
theorem SameBlock.readByte_of_reset {t : State} (h : SameBlock State.reset t) (a : Nat) : t.readByte a = 0#8 := by
  cases hv : t.isView a with
  | true => rw [State.readByte_of_view hv, State.viewByte_congr h.x h.pc h.ir, State.viewByte_reset]
  | false => rw [State.readByte_of_not_view hv, h.bytes]; rfl

theorem SameBlock.reg_of_reset {t : State} (h : SameBlock State.reset t) (r : Reg) : t.reg r = 0#8 :=
  (State.reg_congr h.x r).trans (State.reg_reset r)

theorem SameBlock.pixel_of_reset {t : State} (h : SameBlock State.reset t) (c : Col) (r : Row) : t.pixel c r = false :=
  (State.pixel_congr h.fb c r).trans (State.pixel_reset c r)

theorem step_of_reset {s : State} (hnext : s.nextEvent = some .reset) : step s = .next (s.take .reset).onReset :=
  step_of_event hnext Event.noConfusion

/-- Settles O1: the step answers the zeroed block, and each reading of it is 0. -/
theorem resetRebuildsTheMachine : Obligations.ResetRebuildsTheMachine := by
  intro s hnext
  have hblock : SameBlock State.reset (s.take .reset).onReset := State.sameBlock_onReset _
  exact ⟨_, step_of_reset hnext, hblock, hblock.reg_of_reset, hblock.ir, hblock.pc, hblock.dt, hblock.readByte_of_reset,
    hblock.pixel_of_reset, hblock.run⟩

/-! ## Start and Load in Loading -/

/-- In Loading `Start` enters at the origin (R242). -/
theorem step_of_start_of_loading {s : State} (hnext : s.nextEvent = some .start) (hr : s.run = .loading) :
    step s = .next { s.take .start with pc := Config.origin, run := .running } := by
  have hstart : (s.take .start).onStart = { s.take .start with pc := Config.origin, run := .running } :=
    (State.onStart_eq _).trans (if_pos hr)
  rw [step_of_event hnext Event.noConfusion, applyEvent, hstart]

/-- Settles O2: `Start` is taken and writes `pc` and the run state alone. -/
theorem startEntersAtTheOrigin : Obligations.StartEntersAtTheOrigin := fun _ hnext hr =>
  ⟨_, step_of_start_of_loading hnext hr, rfl, rfl, rfl, rfl, rfl, rfl, rfl⟩

/-- In Loading `Load` writes its byte (R241). -/
theorem step_of_load_of_loading {s : State} {a : Addr12} {v : Byte} (hnext : s.nextEvent = some (.load a v))
    (hr : s.run = .loading) : step s = .next ((s.take (.load a v)).writeByte a.toNat v) := by
  have hload : (s.take (.load a v)).onLoad a v = (s.take (.load a v)).writeByte a.toNat v :=
    (State.onLoad_eq ..).trans (if_pos hr)
  rw [step_of_event hnext Event.noConfusion, applyEvent, hload]

/-- A byte write into the register view leaves the cells (R33). -/
theorem State.writeByte_bytes_of_view {s : State} {a : Nat} (h : s.isView a = true) (v : Byte) :
    (s.writeByte a v).bytes = s.bytes := by
  have hwrite : s.writeByte a v = s.setViewByte a v := if_pos h
  obtain ⟨-, hbytes, -⟩ := s.setViewByte_rest a v
  rw [hwrite, hbytes]

@[simp] theorem State.isView_take (s : State) (ev : Event) (a : Nat) : (s.take ev).isView a = s.isView a :=
  State.isView_congr (by simp) a

/-- A byte read after a `Load` is taken and its byte is written. -/
theorem State.readByte_writeByte_take {s : State} (h : Memory.wf s.bytes = true) (ev : Event) (a : Nat) (v : Byte) (b : Nat) :
    ((s.take ev).writeByte a v).readByte b = if b = a then v else s.readByte b := by
  rw [State.readByte_writeByte (s := s.take ev) h, State.readByte_take]

/-- Settles O3: in Loading the step is the byte write, and elsewhere the `Load` is an event out of place. -/
theorem loadWritesOneByte : Obligations.LoadWritesOneByte := by
  intro s a v hnext hwf
  by_cases hr : s.run = .loading
  · have hread := State.readByte_writeByte_take hwf (.load a v) a.toNat v
    obtain ⟨hdt, hfb, hrun, -⟩ := (s.take (.load a v)).writeByte_rest a.toNat v
    refine ⟨_, step_of_load_of_loading hnext hr, fun _ => ⟨?_, fun b hb => ?_, fun hview => ?_, fun hview => ?_,
      hdt, hfb, hrun.trans hr⟩, fun hne => absurd hr hne⟩
    · rw [hread, if_pos rfl]
    · rw [hread, if_neg hb]
    · rw [State.writeByte_plain (by rwa [State.isView_take])]
      exact ⟨rfl, rfl, rfl⟩
    · exact State.writeByte_bytes_of_view (by rwa [State.isView_take]) v
  · obtain ⟨t, hstep, hblock⟩ := eventsOutOfPlaceDoNothing s _ hnext (.inr (.inr (.inr ⟨.inl ⟨a, v, rfl⟩, hr⟩)))
    exact ⟨t, hstep, fun h => absurd h hr, fun _ => hblock⟩

/-! ## The launch of a program image (R243) -/

/-- What `loads` leave of the byte at `a` when it held `b` before them. -/
def loadedByte (loads : List (Addr12 × Byte)) (b : Byte) (a : Nat) : Byte :=
  loads.foldl (fun b l => if l.1.toNat = a then l.2 else b) b

theorem loadedByte_cons (l : Addr12 × Byte) (loads : List (Addr12 × Byte)) (b : Byte) (a : Nat) :
    loadedByte (l :: loads) b a = loadedByte loads (if a = l.1.toNat then l.2 else b) a := by
  simp only [loadedByte, List.foldl_cons, eq_comm (a := a)]

/-- The image is what the loads leave of empty memory. -/
theorem imageByte_eq_loadedByte (loads : List (Addr12 × Byte)) (a : Nat) : imageByte loads a = loadedByte loads 0#8 a := rfl

/-- In Loading, under `separate`, `loads` and `Start` are pending, and `rest` behind them. -/
structure State.FacesLaunch (s : State) (loads : List (Addr12 × Byte)) (rest : List Event) : Prop where
  run : s.run = .loading
  separate : s.env.regAlias = .separate
  memory : Memory.wf s.bytes = true
  pending : s.env.pending = (loads.map fun l => Event.load l.1 l.2) ++ .start :: rest

/-- `t` is Running at the origin with `rest` pending, its memory what `loads` leave of `s`'s, and the rest of the block as in `s`. -/
structure LaunchedFrom (s : State) (loads : List (Addr12 × Byte)) (rest : List Event) (t : State) : Prop where
  memory : ∀ a, t.readByte a = loadedByte loads (s.readByte a) a
  x : t.x = s.x
  ir : t.ir = s.ir
  dt : t.dt = s.dt
  fb : t.fb = s.fb
  pc : t.pc = Config.origin
  run : t.run = .running
  pending : t.env.pending = rest

theorem State.isView_of_separate {s : State} (h : s.env.regAlias = .separate) (a : Nat) : s.isView a = false := by
  simp [State.isView, h]

section
variable {s : State} {loads : List (Addr12 × Byte)} {rest : List Event}

/-- With every load delivered, `Start` launches. -/
theorem State.FacesLaunch.step_start (h : s.FacesLaunch [] rest) : ∃ t, step s = .next t ∧ LaunchedFrom s [] rest t := by
  obtain ⟨hr, halias, -, hpending⟩ := h
  refine ⟨_, step_of_start_of_loading (nextEvent_of_unranked hpending rfl) hr, fun a => ?_, rfl, rfl, rfl, rfl, rfl, rfl,
    State.take_pending_of_cons hpending Event.noConfusion⟩
  rw [State.readByte_of_not_view (State.isView_of_separate (by simpa using halias) a)]
  exact (State.readByte_of_not_view (State.isView_of_separate halias a)).symm

/-- The first of the loads is delivered: it writes its byte, and under `separate` nothing else of the block. -/
theorem State.FacesLaunch.step_load {l : Addr12 × Byte} (h : s.FacesLaunch (l :: loads) rest) :
    ∃ u, step s = .next u ∧ u.FacesLaunch loads rest ∧
      ∀ t, LaunchedFrom u loads rest t → LaunchedFrom s (l :: loads) rest t := by
  obtain ⟨a, v⟩ := l
  obtain ⟨hr, halias, hwf, hpending⟩ := h
  have halias' : (s.take (.load a v)).env.regAlias = .separate := by simpa using halias
  have hread := State.readByte_writeByte_take hwf (.load a v) a.toNat v
  have hwf' : Memory.wf ((s.take (.load a v)).writeByte a.toNat v).bytes = true :=
    State.wf_writeByte (s := s.take _) hwf a.isLt v
  have hstep := step_of_load_of_loading (nextEvent_of_unranked hpending rfl) hr
  rw [State.writeByte_plain (State.isView_of_separate halias' _)] at hread hwf' hstep
  refine ⟨_, hstep, ⟨hr, halias', hwf', State.take_pending_of_cons hpending Event.noConfusion⟩,
    fun t ht => ⟨fun b => ?_, ht.x, ht.ir, ht.dt, ht.fb, ht.pc, ht.run, ht.pending⟩⟩
  rw [loadedByte_cons, ht.memory, hread]

/-- Loads and `Start` launch, by induction on the loads. -/
theorem State.FacesLaunch.core_run (h : s.FacesLaunch loads rest) :
    ∃ t, Sys2Proof.core.run (loads.length + 1) s = .next t ∧ LaunchedFrom s loads rest t := by
  induction loads generalizing s with
  | nil =>
    obtain ⟨t, hstep, ht⟩ := h.step_start
    exact ⟨t, core_run_succ hstep 0, ht⟩
  | cons l loads ih =>
    obtain ⟨u, hstep, hu, hlaunch⟩ := h.step_load
    obtain ⟨t, hrun, ht⟩ := ih hu
    exact ⟨t, (core_run_succ hstep _).trans hrun, hlaunch t ht⟩

end

/-- Settles O5: `Reset` gives the zeroed block, and the launch from it keeps the zeros and reads the image. -/
theorem launchStateIsTheImage : Obligations.LaunchStateIsTheImage := by
  intro loads rest s halias hpending
  have hblock : SameBlock State.reset (s.take .reset).onReset := State.sameBlock_onReset _
  have hfaces : (s.take .reset).onReset.FacesLaunch loads rest :=
    ⟨hblock.run, (scheduleAfter_regAlias ..).trans halias, rfl, State.take_pending_of_cons hpending Event.noConfusion⟩
  obtain ⟨t, hrun, ht⟩ := hfaces.core_run
  have hstep : step s = .next (s.take .reset).onReset := step_of_reset (nextEvent_of_unranked hpending rfl)
  refine ⟨t, (core_run_succ hstep _).trans hrun, fun a => ?_, fun r => ?_, ht.ir.trans hblock.ir, ht.dt.trans hblock.dt,
    fun c r => ?_, congrArg BitVec.toNat ht.pc, ht.run, ht.pending⟩
  · rw [ht.memory, hblock.readByte_of_reset, imageByte_eq_loadedByte]
  · rw [State.reg_congr ht.x, hblock.reg_of_reset]
  · rw [State.pixel_congr ht.fb, hblock.pixel_of_reset]

/-! # What is refused (70_reset_and_hazards.md R247) -/

/-- A `Cycle` is always answered, since every instruction is. -/
theorem exists_cycle_next (s : State) : ∃ t, cycle s = .next t := by
  by_cases hr : s.run = .running
  · obtain ⟨-, e⟩ | ⟨-, ⟨-, e⟩ | ⟨i, -, e⟩⟩ := cycle_cases hr
    · exact ⟨_, e⟩
    · exact ⟨_, e⟩
    · obtain ⟨t, hexec, -⟩ := exec_effect i s.advance
      exact ⟨t, e.trans hexec⟩
  · exact ⟨s, cycle_of_not_running hr⟩

/-- An event that is delivered is always answered. -/
theorem exists_applyEvent_next (ev : Event) (s : State) : ∃ t, applyEvent ev s = .next t := by
  cases ev with
  | cycle => exact exists_cycle_next s
  | _ => exact ⟨_, rfl⟩

theorem State.secondTick_iff {s : State} : s.secondTick = true ↔ s.run = .running ∧ s.env.ticked = true := by
  simp [State.secondTick, and_comm]

theorem step_of_secondTick {s : State} (hnext : s.nextEvent = some .tick) (hsecond : s.secondTick = true) :
    step s = .refused .secondTickInSlice := by
  unfold step
  rw [hnext]
  exact if_pos ⟨rfl, hsecond⟩

/-- Settles O36: of a step's answers the second `Tick`'s is the one refusal, since a delivered event has a next state. -/
theorem onlyASecondTickIsRefused : Obligations.OnlyASecondTickIsRefused := by
  refine fun s q => ⟨fun h => ?_, ?_⟩
  · obtain ⟨-, e⟩ | ⟨hnext, hsecond, e⟩ | ⟨ev, -, -, e⟩ := step_cases s <;> rw [e] at h
    · cases h
    · cases h
      exact ⟨rfl, hnext, State.secondTick_iff.mp hsecond⟩
    · obtain ⟨t, happly⟩ := exists_applyEvent_next ev (s.take ev)
      rw [happly] at h
      cases h
  · rintro ⟨rfl, hnext, hsecond⟩
    exact step_of_secondTick hnext (State.secondTick_iff.mpr hsecond)

end Sys2Proof.Machine
